-- ==== Sys2Proof/Word.lean ====
section
/-! DEFINITION. The widths of the data the block holds (spec/00_scope.md R9, spec/30_encoding.md R76). -/

namespace Sys2Proof

/-- A character code, a byte, a pixel-channel value, a command word or the status register: an unsigned
integer 0 to 255 held in 8 bits (R9, R50, R70). -/
abbrev Byte := BitVec 8

/-- One element of the space `BIT`: 0 or 1 (R50, R76). -/
abbrev Bit := BitVec 1

end Sys2Proof
end

