-- ==== Sys2Proof/Machine/Hidden.lean ====
section
/-! DEFINITION. The hidden sequencer registers (spec/10_state.md R20, R23, R33, R34). -/

namespace Sys2Proof.Machine

/-- The registers a host can neither read nor write and that "exist only while a command runs" (R23).
`OUT` is the output under construction; its elements are characters in CENC and TOBYTES and bits in TOBITS
and EXTRACT, so it has one field for each element width (log entry 12). -/
structure Hidden where
  /-- `CP`, the cycle position, 0 to n (R33). -/
  cp : Nat
  /-- `RPT`, the filler symbols still to emit after the current letter (R34). -/
  rpt : Nat
  /-- `IDX`, the index of the next input element (R34). -/
  idx : Nat
  /-- `W`, the decoder's working result (R34). -/
  w : List Byte
  /-- `OUT`, when its elements are character codes (R34). -/
  out : List Byte
  /-- `OUT`, when its elements are bits (R34). -/
  outBits : List Bit
deriving DecidableEq, Repr, Inhabited

end Sys2Proof.Machine
end

