-- ==== Sys2Proof/Config.lean ====
section
/-! DEFINITION. What a build of the block fixes and the spec leaves open (spec/00_scope.md R8, R19), and the
free values of the model. -/

namespace Sys2Proof

/-- The open parameters of a build (R8): "fixed for a given build of the block" and "configuration, not
state" (R19). `NW`, `LW` and the capacities are not here: the model is the unbounded reference (log
entry 5). -/
structure Build where
  /-- `SPECIAL`, the ordered table of 23 character codes (R91). -/
  special : Vector Byte 23
  /-- `IS_ALPHA`, "alphabetic letter", a total predicate on codes (R93). -/
  isAlpha : Byte → Bool
  /-- `IS_PRINT`, "printable", a total predicate on codes (R94). -/
  isPrint : Byte → Bool
  /-- `AT`, the sentinel character's code `code('@')` (R95). -/
  atCode : Byte
deriving Inhabited

/-- The build the machine runs as. It has no body: "A model must not assume any particular table" (R91), and
the other three parameters are open as well (U1, U2, U3, U16 of 93_implementation_defined.md). Whatever is
proved of it holds of every build (log entry 1). -/
opaque Config.build : Build

/-- What the hidden registers hold once a command has ended: "any value, and unobservable" (U8 of
93_implementation_defined.md). The argument is `State.freeDraws`, so that each command end draws anew
(log entry 4). -/
opaque Config.discardedHidden : Nat → Machine.Hidden

/-- The build of the spec's own test vectors: the test-only table `SPECIAL_T` (R92) and the defaults of R8.
No meaning uses it; the tests do (log entry 14). -/
def Build.specVectors : Build where
  special := #v[0x21, 0x22, 0x23, 0x24, 0x25, 0x26, 0x27, 0x28, 0x29, 0x2A, 0x2B, 0x2C, 0x2D, 0x2E, 0x2F,
    0x3A, 0x3B, 0x3C, 0x3D, 0x3E, 0x3F, 0x5B, 0x5C]
  isAlpha c := (0x41 ≤ c.toNat && c.toNat ≤ 0x5A) || (0x61 ≤ c.toNat && c.toNat ≤ 0x7A)
  isPrint c := 0x20 ≤ c.toNat && c.toNat ≤ 0x7E
  atCode := 0x40

end Sys2Proof
end

