-- ==== Sys2Proof/Syntax.lean ====
section
/-! DEFINITION. The commands of the block: one constructor per row of spec/opcode_table.json. -/

namespace Sys2Proof

/-- The eight commands (spec/30_encoding.md R71). None of them has an operand in its word: "No command
carries an immediate and none names a register or an address in its word" (R72), so no constructor has an
argument. The pseudo-instructions HIDE and REVEAL have no command word (R78) and are script lines,
`Machine/Script.lean`. -/
inductive Instr where
  /-- 0x01, cipher encode (R96). -/
  | cenc
  /-- 0x02, cipher decode (R100). -/
  | cdec
  /-- 0x03, characters to bits (R121). -/
  | tobits
  /-- 0x04, bits to bytes (R122). -/
  | tobytes
  /-- 0x05, embed bits into the carrier (R136). -/
  | embed
  /-- 0x06, extract the carrier's least-significant bits (R137). -/
  | extract
  /-- 0x07, CENC then TOBITS (R151). -/
  | encb
  /-- 0x08, TOBYTES then CDEC (R152). -/
  | decb
deriving DecidableEq, Repr

end Sys2Proof
end

