-- ==== Sys2Proof/WellFormed.lean ====
section
/-! DEFINITION. Well-formedness of commands and of builds. (Script lines have theirs beside their syntax,
`Machine/Script.lean`.) -/

namespace Sys2Proof

/-- A command carries no operand (spec/30_encoding.md R72), so there is nothing to check: every command is
well-formed. -/
def Instr.wf : Instr → Bool
  | .cenc => true
  | .cdec => true
  | .tobits => true
  | .tobytes => true
  | .embed => true
  | .extract => true
  | .encb => true
  | .decb => true

/-- What spec/40_cyclecipher.md derives about every build: the 23 codes of `SPECIAL` are distinct, "from the
word set" (R91), and `IS_PRINT(AT)` is true (R94). No meaning assumes it; a claim that needs it takes it as
a hypothesis (log entry 1). -/
def Build.wf (b : Build) : Bool :=
  decide b.special.toList.Nodup && b.isPrint b.atCode

end Sys2Proof
end

