-- ==== Sys2Proof/Decode.lean ====
section
/-! DEFINITION. Decoding and encoding of command words (spec/30_encoding.md R70, R71, R73, R75). -/

namespace Sys2Proof

/-- Why a word is no command (R73). Either way the word is `ILLEGAL`. -/
inductive DecodeError where
  /-- The field `RSV` (bits 7:4) is not 0000: the words 0x10 to 0xFF. -/
  | reservedBitsSet
  /-- `RSV` is 0000 and `OPC` is assigned to no command: the words 0x00 and 0x09 to 0x0F. -/
  | opcodeUnassigned
deriving DecidableEq, Repr

/-- Field `RSV`, bits 7:4 of the word (R70). -/
def rsvField (w : Byte) : BitVec 4 := w.extractLsb' 4 4

/-- Field `OPC`, bits 3:0 of the word (R70). -/
def opcField (w : Byte) : BitVec 4 := w.extractLsb' 0 4

/-- One row of the opcode table (R71): a word matches when `word &&& mask = pattern`. -/
structure OpcodeRow where
  mask : Byte
  pattern : Byte
  instr : Instr
deriving DecidableEq, Repr

/-- The opcode assignment (R71): "A decoder matches the whole 8-bit word (mask 0xFF) against the word
column." -/
def opcodeTable : List OpcodeRow :=
  [⟨0xFF, 0x01, .cenc⟩, ⟨0xFF, 0x02, .cdec⟩, ⟨0xFF, 0x03, .tobits⟩, ⟨0xFF, 0x04, .tobytes⟩,
   ⟨0xFF, 0x05, .embed⟩, ⟨0xFF, 0x06, .extract⟩, ⟨0xFF, 0x07, .encb⟩, ⟨0xFF, 0x08, .decb⟩]

/-- Does a row match a word? -/
def OpcodeRow.matchesWord (r : OpcodeRow) (w : Byte) : Bool := w &&& r.mask == r.pattern

/-- The decoder: total on the 256 words, rejecting by name. -/
def decode (w : Byte) : Except DecodeError Instr :=
  match opcodeTable.find? (·.matchesWord w) with
  | some r => .ok r.instr
  | none => if rsvField w = 0 then .error .opcodeUnassigned else .error .reservedBitsSet

/-- The opcode of a command, column `OPC` of R71. -/
def Instr.opc : Instr → BitVec 4
  | .cenc => 0b0001
  | .cdec => 0b0010
  | .tobits => 0b0011
  | .tobytes => 0b0100
  | .embed => 0b0101
  | .extract => 0b0110
  | .encb => 0b0111
  | .decb => 0b1000

/-- The command word of a command: `RSV` 0000 above `OPC` (R70). -/
def encode (i : Instr) : Byte := (0#4 ++ i.opc : BitVec 8)

/-- What the decoder reads from a table word of `nbits` bits: the bits above `nbits` are 0, and a word that
does not fit the one 8-bit format (R75) is no command (log entry 13). -/
def decodeTableWord (nbits w : Nat) : Option Instr :=
  if w % 2 ^ nbits < 256 then (decode (BitVec.ofNat 8 (w % 2 ^ nbits))).toOption else none

end Sys2Proof
end

