-- ==== Sys2Proof/Machine/State.lean ====
section
/-! DEFINITION. The state of the block, the reasons a step can stop, and the state after reset
(spec/10_state.md). -/

namespace Sys2Proof.Machine

/-- The four buffer spaces (spec/20_memory.md R50). -/
inductive Space where
  | txt
  | chr
  | bit
  | pix
deriving DecidableEq, Repr

/-- A sequence of elements of one space, at that space's element width (R50). -/
inductive SpaceSeq where
  | txt (xs : List Byte)
  | chr (xs : List Byte)
  | bit (xs : List Bit)
  | pix (xs : List Byte)
deriving DecidableEq, Repr

/-- What the host can do to the block between commands (spec/10_state.md R38; reset: 70 R190). Registers
are written and read by their numbers (R30); the writes of `CMD`, `N`, a length and `STATUS` can be named as well
(R12 names registers so). The actions R38 forbids that can be written down here (raising a length, reading beyond
a length, reading `CMD`, writing `STATUS`) are refused by name. -/
inductive HostAction where
  /-- Write a command word to `CMD` (R28). -/
  | writeCmd (w : Byte)
  /-- Write `N` (R21). -/
  | writeN (v : Int)
  /-- Write the length register of a space: lower it (R38). -/
  | writeLen (sp : Space) (k : Nat)
  /-- Load a space with `SetBuf(S, s)` (R38). -/
  | load (q : SpaceSeq)
  /-- Write a value to the register of this number (R30). -/
  | writeReg (num : Nat) (v : Int)
  /-- Read the register of this number (R30). -/
  | readReg (num : Nat)
  /-- Read `Buf(S)` (R38). -/
  | readBuf (sp : Space)
  /-- Read the element at an index of a space (R38, R57). -/
  | readElem (sp : Space) (i : Nat)
  /-- Write `STATUS`, which is read only (R25, R30). -/
  | writeStatus (v : Byte)
  /-- Reset the block (R190). -/
  | reset
deriving DecidableEq, Repr

/-- The names of the values of `STATUS.ERR` (R26, spec/60_exceptions.md R166). -/
inductive ErrCode where
  | ok
  | capacity
  | param
  | align
  | illegal
deriving DecidableEq, Repr

/-- The reasons the machine stops with a fault: there are none. An error code in `STATUS` is "a defined, final
outcome of a command" and "not a fault in the modelling guide's sense" (60 R182); nothing else ends a command
(R165). -/
inductive Fault where
deriving DecidableEq, Repr

/-- What the model does not accept: "The only things a model should refuse are the undefined host actions of
93_implementation_defined.md entries U4 to U6" (60 R182). None of these is raised by a command. -/
inductive Refusal where
  /-- `exec`'s answer for an instruction without a meaning; no arm gives it. Safe. -/
  | notModelled (mnemonic : String)
  /-- The host raises a length register other than by a load (U4). Raised by the host port. Safe. -/
  | lengthRaised
  /-- The host reads an element at or beyond the length register (U4). Raised by the host port. Safe. -/
  | indexBeyondLength
  /-- The host reads `CMD`, which is write only (U6). Raised by the host port. Safe. -/
  | cmdRead
  /-- The host names a register by a number of 7 or above, which "name no register" (R30). Raised by the host
  port. Safe. -/
  | noSuchRegister
  /-- The host writes `STATUS`, which is read only (R25, R38). Raised by the host port. Safe. -/
  | statusWrite
  /-- The host writes by number a value that the register's type does not hold: to `CMD` one that is not 0 to 255,
  to a length register a negative one (R28, R29; 60 R174). Raised by the host port. Safe. -/
  | valueNotOfRegister
  /-- A host script holds a line that is not one of R77's. Raised by the script runner. Safe. -/
  | illFormedLine
deriving DecidableEq, Repr

/-- The complete state of the block (R20), and three fields of the model's own at the end. Each buffer space is
held together with its length register as one finite list, as R20 allows: `S_LEN` is the list's length (log
entry 11). `CMD` "holds nothing" (R28, R36), so it has no field. -/
structure State where
  /-- Operand register `N`, signed (R21); unbounded as R8 says of a model. -/
  n : Int
  /-- `STATUS`, 8 bits (R25). -/
  status : Byte
  /-- Space `TXT` with `TXT_LEN` (R31, R29). -/
  txt : List Byte
  /-- Space `CHR` with `CHR_LEN` (R31, R29). -/
  chr : List Byte
  /-- Space `BIT` with `BIT_LEN` (R31, R29). -/
  bit : List Bit
  /-- Space `PIX` with `PIX_LEN` (R31, R29). -/
  pix : List Byte
  /-- The hidden registers `CP`, `RPT`, `IDX`, `W`, `OUT` (R23, R33, R34). -/
  hidden : Hidden
  /-- The model's own: how many free values have been drawn (log entry 4). -/
  freeDraws : Nat
  /-- The model's own: the host's actions still to come, the next one first (log entry 6). -/
  pending : List HostAction
deriving DecidableEq, Repr

/-- The state after reset (R36). `STATUS` is 0x00 and the four spaces are empty. `N` and the hidden registers
are unspecified there, and the values here are the model's (log entries 2 and 3). -/
def State.reset : State where
  n := 0
  status := 0x00
  txt := []
  chr := []
  bit := []
  pix := []
  hidden := { cp := 0, rpt := 0, idx := 0, w := [], out := [], outBits := [] }
  freeDraws := 0
  pending := []

end Sys2Proof.Machine
end

