-- ==== Sys2Proof/Machine/Operands.lean ====
section
/-! DEFINITION. The implicit operands of the commands (spec/30_encoding.md R72) and the arithmetic on single
elements, all of it (spec/43_composite.md R157). -/

namespace Sys2Proof.Machine

/-- Operand `N` as the cipher reads it at the start of a command: the period parameter `n` when it is not
negative, nothing when it is (40 R96 and R100, lines 1 and 2; comparison `n < 0` of R157 (8)). -/
def State.cipherParam (s : State) : Option Nat :=
  if s.n < 0 then none else some s.n.toNat

/-- Phase advance `(CP + 1) mod (n + 1)` (R157 (2), R33). -/
def advance (n cp : Nat) : Nat := (cp + 1) % (n + 1)

/-- Shift of a code in CENC, `(c + CP) mod 256`, the sum taken on unbounded integers (R157 (1)). -/
def shiftUp (c : Byte) (cp : Nat) : Byte := BitVec.ofNat 8 (c.toNat + cp)

/-- Shift of a code in CDEC, `(b - CP) mod 256`, the difference taken on unbounded integers and never negative
after the reduction (R157 (1), R10). -/
def shiftDown (b : Byte) (cp : Nat) : Byte := BitVec.ofInt 8 ((b.toNat : Int) - cp)

/-- The filler symbol `(SPECIAL[CP mod 23] + CP) mod 256` (R157 (3) and (4)). -/
def filler (b : Build) (cp : Nat) : Byte :=
  shiftUp (b.special[cp % 23]'(Nat.mod_lt _ (by decide))) cp

/-- The test `c in SPECIAL` (R91). -/
def isSpecial (b : Build) (c : Byte) : Bool := b.special.toList.contains c

/-- Bit `j` of an 8-bit value, `v[j]` (R9). -/
def bitOf (v : Byte) (j : Nat) : Bit := v.extractLsb' j 1

/-- The eight bits of a character, most significant first: `c[7 - j]` for `j` from 0 to 7 (41 R121 lines 4 and
5, 20 R52). -/
def charBits (c : Byte) : List Bit := (List.range 8).map fun j => bitOf c (7 - j)

/-- `v <- 2 * v + bit` (R157 (7)). -/
def accumulateBit (v : Nat) (b : Bit) : Nat := 2 * v + b.toNat

/-- Byte reassembly of a group of bits, first bit most significant: `accumulateBit` over the group from
`v = 0` (41 R122 lines 4 to 6). -/
def groupByte (bits : List Bit) : Byte := BitVec.ofNat 8 (bits.foldl accumulateBit 0)

/-- Bit replace `(p & 0xFE) | b` (R157 (5)). -/
def replaceLsb (p : Byte) (b : Bit) : Byte := (p &&& 0xFE) ||| b.setWidth 8

/-- Bit extract `p & 1`, as the 1-bit element it becomes (R157 (6)). -/
def lsb (p : Byte) : Bit := (p &&& 1).setWidth 1

end Sys2Proof.Machine
end

