-- ==== Sys2Proof/Machine/Flags.lean ====
section
/-! DEFINITION. The status register: its fields and the values commands write (spec/10_state.md R25 to R27,
spec/60_exceptions.md R166). -/

namespace Sys2Proof.Machine

/-- The number of an error code (R26, R166). -/
def ErrCode.code : ErrCode → BitVec 3
  | .ok => 0
  | .capacity => 1
  | .param => 2
  | .align => 3
  | .illegal => 4

/-- The whole of `STATUS` from its fields: `ERR` in bits 2:0, `SNF` in bit 3, bits 7:4 reserved and 0 (R25). -/
def statusWord (e : ErrCode) (snf : Bool) : Byte :=
  ((0#4 ++ BitVec.ofBool snf) ++ e.code : BitVec 8)

/-- Field `ERR`, bits 2:0 (R25). -/
def State.errField (s : State) : BitVec 3 := s.status.extractLsb' 0 3

/-- Field `SNF`, bit 3, "sentinel not found" (R27). -/
def State.snfField (s : State) : Bool := s.status.getLsbD 3

/-- The reserved field, bits 7:4 (R25). -/
def State.statusReserved (s : State) : BitVec 4 := s.status.extractLsb' 4 4

/-- Did the most recent command end with `ERR = OK`? (R79) -/
def State.endedOk (s : State) : Bool := s.errField == ErrCode.ok.code

end Sys2Proof.Machine
end

