-- ==== Sys2Proof/Machine/Ops.lean ====
section
/-! DEFINITION. The named operations over registers and spaces (spec/00_scope.md R12), raising an error
(spec/60_exceptions.md R170) and the normal end of a command. There is no return from an error, "because
nothing was entered" (R178). -/

namespace Sys2Proof.Machine

/-- `x[N] <- v`. -/
def State.setN (v : Int) (s : State) : State := { s with n := v }

/-- `x[STATUS] <- v`. -/
def State.setStatus (v : Byte) (s : State) : State := { s with status := v }

/-- `SetBuf(TXT, xs)`: the elements and `TXT_LEN` (R12). -/
def State.setTxt (xs : List Byte) (s : State) : State := { s with txt := xs }

/-- `SetBuf(CHR, xs)`. -/
def State.setChr (xs : List Byte) (s : State) : State := { s with chr := xs }

/-- `SetBuf(BIT, xs)`. -/
def State.setBit (xs : List Bit) (s : State) : State := { s with bit := xs }

/-- `SetBuf(PIX, xs)`; also the whole of `PIX` after EMBED's writes in place, which keep its length (R136). -/
def State.setPix (xs : List Byte) (s : State) : State := { s with pix := xs }

/-- The hidden registers, written by bare name (R12). -/
def State.setHidden (h : Hidden) (s : State) : State := { s with hidden := h }

/-- The host's actions still to come (log entry 6). -/
def State.setPending (q : List HostAction) (s : State) : State := { s with pending := q }

/-- `SetBuf(S, s)` of any space (R12). -/
def State.setBuf (q : SpaceSeq) (s : State) : State :=
  match q with
  | .txt xs => s.setTxt xs
  | .chr xs => s.setChr xs
  | .bit xs => s.setBit xs
  | .pix xs => s.setPix xs

/-- `Buf(S)`, the sequence a space holds (R12). -/
def State.buf (sp : Space) (s : State) : SpaceSeq :=
  match sp with
  | .txt => .txt s.txt
  | .chr => .chr s.chr
  | .bit => .bit s.bit
  | .pix => .pix s.pix

/-- `Len(S)`, the value of the length register `S_LEN` (R12, R29). -/
def State.len (sp : Space) (s : State) : Nat :=
  match sp with
  | .txt => s.txt.length
  | .chr => s.chr.length
  | .bit => s.bit.length
  | .pix => s.pix.length

/-- The space a sequence belongs to. -/
def SpaceSeq.space : SpaceSeq → Space
  | .txt _ => .txt
  | .chr _ => .chr
  | .bit _ => .bit
  | .pix _ => .pix

/-- One element of a space, at its own width (R50). -/
inductive Elem where
  | code (v : Byte)
  | bit (v : Bit)
deriving DecidableEq, Repr

/-- `MemRead(S:i, 1)`; nothing at an index at or beyond the length register, where elements "hold no value a
host or a command can observe" (R32). -/
def State.memRead (sp : Space) (i : Nat) (s : State) : Option Elem :=
  match sp with
  | .txt => s.txt[i]?.map Elem.code
  | .chr => s.chr[i]?.map Elem.code
  | .bit => s.bit[i]?.map Elem.bit
  | .pix => s.pix[i]?.map Elem.code

/-- Lowering `S_LEN` to `k`: it "truncates the sequence to its first `S_LEN` elements and changes no element"
(R38). -/
def State.truncate (sp : Space) (k : Nat) (s : State) : State :=
  match sp with
  | .txt => s.setTxt (s.txt.take k)
  | .chr => s.setChr (s.chr.take k)
  | .bit => s.setBit (s.bit.take k)
  | .pix => s.setPix (s.pix.take k)

/-- `raise E(info)` (60 R170), the block's whole error entry: `STATUS` takes the code with `SNF = 0` and "nothing
else is written". "Control does not go anywhere: there is no vector table, no handler address, no saved
program counter, no mode change, no stack", and `info` is stored nowhere (R166). -/
def State.raise (e : ErrCode) (s : State) : State := s.setStatus (statusWord e false)

/-- The end of a command that completed: `STATUS` is overwritten whole with `ERR = OK` and the given `SNF`
(R25, R27), and the hidden registers are discarded (R23, R33), which leaves a free value in them (log
entry 4). -/
def State.complete (snf : Bool) (s : State) : State :=
  { s with
    status := statusWord .ok snf
    hidden := Config.discardedHidden s.freeDraws
    freeDraws := s.freeDraws + 1 }

/-- The next stage of a composite: it runs unless the stage before it raised (43 R151 and R152, 30 R79). -/
def thenStage (f : State → State) (s : State) : State :=
  if s.endedOk then f s else s

end Sys2Proof.Machine
end

