-- ==== Sys2Proof/Machine/BitPacker.lean ====
section
/-! DEFINITION. Unit BP, the bit packer: TOBITS and TOBYTES (spec/41_bitpacker.md). The loops' `IDX` and `OUT`
are the position in and the result of the list functions below (log entry 12). -/

namespace Sys2Proof.Machine

/-- R121 lines 1 to 5: the bits of every character, in input order. -/
def serialize (chars : List Byte) : List Bit := chars.flatMap charBits

/-- R122 lines 2 to 7: every complete group of 8 bits, in order, as a byte. -/
def deserialize : List Bit → List Byte
  | b7 :: b6 :: b5 :: b4 :: b3 :: b2 :: b1 :: b0 :: rest =>
    groupByte [b7, b6, b5, b4, b3, b2, b1, b0] :: deserialize rest
  | _ => []

/-- TOBITS (R121); it cannot fail. -/
def tobits (s : State) : State := (s.setBit (serialize s.chr)).complete false

/-- TOBYTES (R122): the check of line 1 comes before any bit is consumed. -/
def tobytes (s : State) : State :=
  if s.bit.length % 8 ≠ 0 then s.raise .align
  else (s.setChr (deserialize s.bit)).complete false

/-- TOBITS, word 0x03 (R121). -/
def execTobits (s : State) : Host.Outcome State Fault Refusal := .next (tobits s)

/-- TOBYTES, word 0x04 (R122). -/
def execTobytes (s : State) : Host.Outcome State Fault Refusal := .next (tobytes s)

end Sys2Proof.Machine
end

