-- ==== Sys2Proof/Machine/CycleCipher.lean ====
section
/-! DEFINITION. Unit CC, the cycle cipher: CENC and CDEC (spec/40_cyclecipher.md). The loops run over the hidden
registers as the pseudocode does. -/

namespace Sys2Proof.Machine

/-- `OUT <- OUT ++ [c]`. -/
def Hidden.emit (c : Byte) (h : Hidden) : Hidden := { h with out := h.out ++ [c] }

/-- `CP <- (CP + 1) mod (n + 1)`, the only way `CP` advances (R90). -/
def Hidden.advanceCp (n : Nat) (h : Hidden) : Hidden := { h with cp := advance n h.cp }

/-- `IDX` moves to the next input element (10 R34). -/
def Hidden.nextIdx (h : Hidden) : Hidden := { h with idx := h.idx + 1 }

/-- Line 3 of R96 and of R100: `CP <- 0`, and `OUT` (R96) or `W` (R100) empty, with `IDX` at 0 (70 R191). -/
def Hidden.startCipher (h : Hidden) : Hidden := { h with cp := 0, idx := 0, w := [], out := [] }

/-- R96 lines 9 to 12, `while RPT > 0`; the first argument is the number of turns left, which is `RPT`. -/
def cencFill (b : Build) (n : Nat) : Nat → Hidden → Hidden
  | 0, h => h
  | k + 1, h =>
    let h := h.advanceCp n
    let h := h.emit (filler b h.cp)
    cencFill b n k { h with rpt := k }

/-- R96 lines 5 to 13, the loop body for one input character. The repeat count is captured before `CP`
changes. -/
def cencChar (b : Build) (n : Nat) (h : Hidden) (c : Byte) : Hidden :=
  let h := h.emit (shiftUp c h.cp)
  let h := if b.isAlpha c then cencFill b n h.cp { h with rpt := h.cp } else h
  (h.advanceCp n).nextIdx

/-- R96 lines 14 and 15, the two terminator characters. -/
def cencSentinel (b : Build) (n : Nat) (h : Hidden) : Hidden :=
  (h.emit (shiftUp b.atCode h.cp)).emit (shiftUp b.atCode (advance n h.cp))

/-- R96 lines 3 to 15: the hidden registers when `OUT` is complete. -/
def cencLoop (b : Build) (n : Nat) (txt : List Byte) (h : Hidden) : Hidden :=
  cencSentinel b n (txt.foldl (cencChar b n) h.startCipher)

/-- CENC (R96) in a given build. -/
def cencIn (b : Build) (s : State) : State :=
  match s.cipherParam with
  | none => s.raise .param
  | some n => (s.setChr (cencLoop b n s.txt s.hidden).out).complete false

/-- The test of R100 line 9: the last two elements of `W` are both `AT`. -/
def endsInSentinel (b : Build) (w : List Byte) : Bool :=
  2 ≤ w.length && w[w.length - 2]? == some b.atCode && w[w.length - 1]? == some b.atCode

/-- R100 lines 5 to 8 for one byte. -/
def cdecByte (b : Build) (n : Nat) (h : Hidden) (x : Byte) : Hidden :=
  let d := shiftDown x h.cp
  let h := if b.isPrint d then { h with w := h.w ++ [d] } else h
  (h.advanceCp n).nextIdx

/-- R100 lines 4 to 10: the hidden registers when the loop ends, and `found`. -/
def cdecLoop (b : Build) (n : Nat) : List Byte → Hidden → Hidden × Bool
  | [], h => (h, false)
  | x :: xs, h =>
    let h := cdecByte b n h x
    if endsInSentinel b h.w then ({ h with w := h.w.take (h.w.length - 2) }, true)
    else cdecLoop b n xs h

/-- R100 line 11: remove every character that belongs to `SPECIAL`. -/
def stripSpecial (b : Build) (w : List Byte) : List Byte := w.filter fun c => !isSpecial b c

/-- CDEC (R100) in a given build. -/
def cdecIn (b : Build) (s : State) : State :=
  match s.cipherParam with
  | none => s.raise .param
  | some n =>
    let (h, found) := cdecLoop b n s.chr s.hidden.startCipher
    (s.setTxt (stripSpecial b h.w)).complete (!found)

/-- CENC, word 0x01 (R96). -/
def execCenc (s : State) : Host.Outcome State Fault Refusal := .next (cencIn Config.build s)

/-- CDEC, word 0x02 (R100). -/
def execCdec (s : State) : Host.Outcome State Fault Refusal := .next (cdecIn Config.build s)

end Sys2Proof.Machine
end

