-- ==== Sys2Proof/Machine/PixelChannel.lean ====
section
/-! DEFINITION. Unit PX, the pixel channel: EMBED and EXTRACT (spec/42_pixelchannel.md). -/

namespace Sys2Proof.Machine

/-- R136 lines 2 to 5: element `i` of the carrier takes bit `i` of the payload as its least-significant bit, and
the elements beyond the payload stay. -/
def embedLsbs : List Byte → List Bit → List Byte
  | p :: ps, b :: bs => replaceLsb p b :: embedLsbs ps bs
  | ps, [] => ps
  | [], _ :: _ => []

/-- EMBED (R136), in place on `PIX`: the check of line 1 comes before the first write. -/
def embed (s : State) : State :=
  if s.bit.length > s.pix.length then s.raise .capacity
  else (s.setPix (embedLsbs s.pix s.bit)).complete false

/-- EXTRACT (R137): one bit for every element of the carrier; it cannot fail. -/
def extract (s : State) : State := (s.setBit (s.pix.map lsb)).complete false

/-- EMBED, word 0x05 (R136). -/
def execEmbed (s : State) : Host.Outcome State Fault Refusal := .next (embed s)

/-- EXTRACT, word 0x06 (R137). -/
def execExtract (s : State) : Host.Outcome State Fault Refusal := .next (extract s)

end Sys2Proof.Machine
end

