-- ==== Sys2Proof/Machine/Composite.lean ====
section
/-! DEFINITION. The composite commands ENCB and DECB and the results of the pseudo-instructions HIDE and REVEAL
(spec/43_composite.md): "a composite is its stages run one after another" (R150). -/

namespace Sys2Proof.Machine

/-- ENCB (R151) in a given build: CENC, then TOBITS unless CENC raised. -/
def encbIn (b : Build) (s : State) : State := thenStage tobits (cencIn b s)

/-- DECB (R152) in a given build: TOBYTES, then CDEC unless TOBYTES raised. -/
def decbIn (b : Build) (s : State) : State := thenStage (cdecIn b) (tobytes s)

/-- HIDE (R153) in a given build: CENC, TOBITS, EMBED. -/
def hideIn (b : Build) (s : State) : State := thenStage embed (thenStage tobits (cencIn b s))

/-- REVEAL (R154) in a given build: EXTRACT, TOBYTES, CDEC. -/
def revealIn (b : Build) (s : State) : State := thenStage (cdecIn b) (thenStage tobytes (extract s))

/-- The effect of a command in a given build. `exec` is this at `Config.build`; statements that hold of every
build are made about it. -/
def commandIn (b : Build) : Instr → State → State
  | .cenc => cencIn b
  | .cdec => cdecIn b
  | .tobits => tobits
  | .tobytes => tobytes
  | .embed => embed
  | .extract => extract
  | .encb => encbIn b
  | .decb => decbIn b

/-- ENCB, word 0x07 (R151). -/
def execEncb (s : State) : Host.Outcome State Fault Refusal := .next (encbIn Config.build s)

/-- DECB, word 0x08 (R152). -/
def execDecb (s : State) : Host.Outcome State Fault Refusal := .next (decbIn Config.build s)

end Sys2Proof.Machine
end

