-- ==== Sys2Proof/Machine/Port.lean ====
section
/-! DEFINITION. The host port: what the block does on each action of the host between commands
(spec/10_state.md R28, R30, R38, spec/70_reset_and_hazards.md R190). -/

namespace Sys2Proof.Machine

/-- The registers a host can name (R30). -/
inductive Reg where
  | cmd
  | status
  | n
  | len (sp : Space)
deriving DecidableEq, Repr

/-- The register of a number: "Numbers 7 and above name no register" (R30). -/
def regOfNumber : Nat → Option Reg
  | 0 => some .cmd
  | 1 => some .status
  | 2 => some .n
  | 3 => some (.len .txt)
  | 4 => some (.len .chr)
  | 5 => some (.len .bit)
  | 6 => some (.len .pix)
  | _ => none

/-- What a read gives the host. -/
inductive HostValue where
  /-- The value of `STATUS`. -/
  | status (v : Byte)
  /-- The value of `N`. -/
  | n (v : Int)
  /-- The value of a length register. -/
  | len (k : Nat)
  /-- `Buf(S)`. -/
  | buf (q : SpaceSeq)
  /-- One element. -/
  | elem (e : Elem)
deriving DecidableEq, Repr

/-- A read of the register of a number (R30, R38); a read of `CMD` is not defined (R28, U6). -/
def readReg (num : Nat) (s : State) : Except Refusal HostValue :=
  match regOfNumber num with
  | some .cmd => .error .cmdRead
  | some .status => .ok (.status s.status)
  | some .n => .ok (.n s.n)
  | some (.len sp) => .ok (.len (s.len sp))
  | none => .error .noSuchRegister

/-- A read of one element; an index at or beyond the length register is outside the interface (R38, U4). -/
def readElem (sp : Space) (i : Nat) (s : State) : Except Refusal HostValue :=
  match s.memRead sp i with
  | some e => .ok (.elem e)
  | none => .error .indexBeyondLength

/-- After a read the state is as before: "Reading an element or a register has no side effect" (R57). -/
def afterRead (r : Except Refusal HostValue) (s : State) : Host.Outcome State Fault Refusal :=
  match r with
  | .ok _ => .next s
  | .error e => .refused e

/-- A write of a word to `CMD` (R28): the block decodes it and runs the command, and an illegal word ends with
`ERR = ILLEGAL` and no other change (30 R73, 60 R171). -/
def issue (w : Byte) (s : State) : Host.Outcome State Fault Refusal :=
  match decode w with
  | .ok i => exec i s
  | .error _ => .next (s.raise .illegal)

/-- Writing a length register: lowering it truncates the space, raising it is outside the interface (R38, R77,
U4). -/
def writeLen (sp : Space) (k : Nat) (s : State) : Host.Outcome State Fault Refusal :=
  if k ≤ s.len sp then .next (s.truncate sp k) else .refused .lengthRaised

/-- Writing a value to the register of a number (R30): `CMD` takes a command word, `N` any integer, a length register
a natural number; `STATUS` takes no write. A value outside the register's type "cannot be given" to the block
(60 R174; log entry 20). -/
def writeReg (num : Nat) (v : Int) (s : State) : Host.Outcome State Fault Refusal :=
  match regOfNumber num with
  | some .cmd => if 0 ≤ v ∧ v < 256 then issue (BitVec.ofInt 8 v) s else .refused .valueNotOfRegister
  | some .status => .refused .statusWrite
  | some .n => .next (s.setN v)
  | some (.len sp) => if 0 ≤ v then writeLen sp v.toNat s else .refused .valueNotOfRegister
  | none => .refused .noSuchRegister

/-- Reset (R190): every piece of the block's state at the value of R36's table. The model's own fields are no
state of the block and stay (log entry 8). -/
def resetBlock (s : State) : State :=
  { State.reset with freeDraws := s.freeDraws, pending := s.pending }

/-- One action of the host. -/
def hostAct (a : HostAction) (s : State) : Host.Outcome State Fault Refusal :=
  match a with
  | .writeCmd w => issue w s
  | .writeN v => .next (s.setN v)
  | .writeLen sp k => writeLen sp k s
  | .load q => .next (s.setBuf q)
  | .writeReg num v => writeReg num v s
  | .readReg num => afterRead (readReg num s) s
  | .readBuf sp => afterRead (.ok (.buf (s.buf sp))) s
  | .readElem sp i => afterRead (readElem sp i s) s
  | .writeStatus _ => .refused .statusWrite
  | .reset => .next (resetBlock s)

/-- The host's next action, taken from those still to come; with none to come the block is idle, and "that
idleness has no architectural content" (60 R181; log entry 7). -/
def takeNext (s : State) : Host.Outcome State Fault Refusal :=
  match s.pending with
  | [] => .next s
  | a :: rest => hostAct a (s.setPending rest)

/-- The host's next action is to write the table word of `nbits` bits to `CMD`. -/
def placeWord (s : State) (nbits w : Nat) : State :=
  s.setPending (.writeCmd (BitVec.ofNat 8 (w % 2 ^ nbits)) :: s.pending)

end Sys2Proof.Machine
end

