-- ==== Sys2Proof/Machine/Step.lean ====
section
/-! DEFINITION. The step function: one action of the host, one command at a time (spec/00_scope.md R6, R17). -/

namespace Sys2Proof.Machine

/-- One step at transaction level (R6): the host's next action, a command running from its start to its end. -/
def step (s : State) : Host.Outcome State Fault Refusal := takeNext s

/-- `s` with the host about to write this command word to `CMD`. The block fetches no instruction (10 R24), so
this is where the next instruction comes from (20 R65; log entry 6). -/
def State.withFetchWord (s : State) (nbits w : Nat) : State := placeWord s nbits w

end Sys2Proof.Machine
end

