-- ==== Sys2Proof/Machine/Script.lean ====
section
/-! DEFINITION. Host scripts, with the pseudo-instructions HIDE and REVEAL (spec/30_encoding.md R77 to R79). -/

namespace Sys2Proof.Machine

/-- The lines of a host script (R77). -/
inductive ScriptLine where
  /-- `SET N, v`. -/
  | setN (v : Int)
  /-- `SET <space>_LEN, k`. -/
  | setLen (sp : Space) (k : Nat)
  /-- `LOAD <space>, "chars"`, "for TXT or CHR". -/
  | loadString (sp : Space) (chars : List Char)
  /-- `LOAD <space>, (v0, v1, ...)` with the values in braces. -/
  | loadValues (q : SpaceSeq)
  /-- A mnemonic: write its command word to `CMD`. -/
  | command (i : Instr)
  /-- The pseudo-instruction `HIDE` (R78). -/
  | hide
  /-- The pseudo-instruction `REVEAL` (R78). -/
  | reveal
  /-- `; text`. -/
  | comment (text : String)
deriving DecidableEq, Repr

/-- The ASCII code of a character (R77). -/
def asciiCode (c : Char) : Byte := BitVec.ofNat 8 c.toNat

/-- Is it a line of R77? A string loads `TXT` or `CHR`, and each of its characters has an ASCII code (log
entry 10). -/
def ScriptLine.wf : ScriptLine → Bool
  | .setN _ => true
  | .setLen _ _ => true
  | .loadString sp chars => (sp == .txt || sp == .chr) && chars.all fun c => c.toNat < 128
  | .loadValues _ => true
  | .command i => i.wf
  | .hide => true
  | .reveal => true
  | .comment _ => true

/-- The codes of a string as a sequence of the space it is loaded into. `BIT` and `PIX` take no string. -/
def stringSeq (sp : Space) (chars : List Char) : Option SpaceSeq :=
  match sp with
  | .txt => some (.txt (chars.map asciiCode))
  | .chr => some (.chr (chars.map asciiCode))
  | .bit => none
  | .pix => none

/-- The commands a pseudo-instruction expands to (R78). -/
def hideExpansion : List Instr := [.cenc, .tobits, .embed]

/-- The commands a pseudo-instruction expands to (R78). -/
def revealExpansion : List Instr := [.extract, .tobytes, .cdec]

/-- The host actions of a line (R77, R78). "Only a mnemonic line produces a command word". -/
def ScriptLine.actions : ScriptLine → List HostAction
  | .setN v => [.writeN v]
  | .setLen sp k => [.writeLen sp k]
  | .loadString sp chars => (stringSeq sp chars).toList.map .load
  | .loadValues q => [.load q]
  | .command i => [.writeCmd (encode i)]
  | .hide => hideExpansion.map fun i => .writeCmd (encode i)
  | .reveal => revealExpansion.map fun i => .writeCmd (encode i)
  | .comment _ => []

/-- Is it a write of a command word? Only commands write `STATUS` (R25), so only after one does a script look at
`STATUS.ERR` (R79). -/
def HostAction.isCommand : HostAction → Bool
  | .writeCmd _ => true
  | .writeReg num _ => num == 0
  | _ => false

/-- Run a list of host actions in order and stop "after the first command that ends with `STATUS.ERR` not `OK`"
(R79). This is the host's convention: "The block itself enforces nothing here" (log entry 9). -/
def runActions : List HostAction → State → Host.Outcome State Fault Refusal
  | [], s => .next s
  | a :: rest, s =>
    match hostAct a s with
    | .next t => if a.isCommand && !t.endedOk then .next t else runActions rest t
    | .fault r => .fault r
    | .refused r => .refused r

/-- Run a host script (R77, R79). -/
def runScript (lines : List ScriptLine) (s : State) : Host.Outcome State Fault Refusal :=
  if lines.all ScriptLine.wf then runActions (lines.flatMap ScriptLine.actions) s
  else .refused .illFormedLine

end Sys2Proof.Machine
end

