-- ==== Sys2Proof/Machine/Sequencer.lean ====
section
/-! DEFINITION. The step machines inside the commands: CENC (spec/40_cyclecipher.md R97), CDEC (R101), TOBITS and
TOBYTES (spec/41_bitpacker.md R123), one element step at a time over the hidden registers. The host sees none
of these steps (spec/00_scope.md R6); that they build what the commands build is stated as refinements. -/

namespace Sys2Proof.Machine

/-- The phase of the CENC step machine (R97). -/
inductive CencPhase where
  | char
  | fill
  | term2
  | done
deriving DecidableEq, Repr

/-- The step state of CENC, `(phase, IDX, CP, RPT, OUT)` (R97). -/
structure CencSeq where
  phase : CencPhase
  regs : Hidden
deriving DecidableEq, Repr

/-- The start state `(CHAR, 0, 0, 0, [])` (R97). -/
def CencSeq.start (h : Hidden) : CencSeq := ⟨.char, { h.startCipher with rpt := 0 }⟩

/-- One step of CENC (R97): exactly one character is appended, except in `DONE`, which has no step. -/
def CencSeq.step (b : Build) (n : Nat) (txt : List Byte) (q : CencSeq) : CencSeq :=
  match q.phase with
  | .char =>
    match txt[q.regs.idx]? with
    | some c =>
      let h := q.regs.emit (shiftUp c q.regs.cp)
      if b.isAlpha c && 0 < h.cp then ⟨.fill, { h with rpt := h.cp }⟩
      else ⟨.char, (h.advanceCp n).nextIdx⟩
    | none => ⟨.term2, q.regs.emit (shiftUp b.atCode q.regs.cp)⟩
  | .fill =>
    let h := q.regs.advanceCp n
    let h := h.emit (filler b h.cp)
    let h := { h with rpt := h.rpt - 1 }
    if h.rpt = 0 then ⟨.char, (h.advanceCp n).nextIdx⟩ else ⟨.fill, h⟩
  | .term2 => ⟨.done, q.regs.emit (shiftUp b.atCode (advance n q.regs.cp))⟩
  | .done => q

/-- The step state of CDEC, `(IDX, CP, W, found)` (R101). -/
structure CdecSeq where
  regs : Hidden
  found : Bool
deriving DecidableEq, Repr

/-- The start state `(0, 0, [], 0)` (R101). -/
def CdecSeq.start (h : Hidden) : CdecSeq := ⟨h.startCipher, false⟩

/-- One step of CDEC (R101); it exists when `found = 0` and `IDX < Len(CHR)`. -/
def CdecSeq.step (b : Build) (n : Nat) (chr : List Byte) (q : CdecSeq) : CdecSeq :=
  if q.found then q
  else
    match chr[q.regs.idx]? with
    | none => q
    | some x =>
      let h := cdecByte b n q.regs x
      if endsInSentinel b h.w then ⟨{ h with w := h.w.take (h.w.length - 2) }, true⟩
      else ⟨h, false⟩

/-- The step state of TOBITS, `(IDX, j, OUT)` (R123). -/
structure TobitsSeq where
  j : Nat
  regs : Hidden
deriving DecidableEq, Repr

/-- The start state `(0, 0, [])` (R123). -/
def TobitsSeq.start (h : Hidden) : TobitsSeq := ⟨0, { h with idx := 0, outBits := [] }⟩

/-- One step of TOBITS: it appends bit `CHR[IDX][7 - j]` (R123). -/
def TobitsSeq.step (chr : List Byte) (q : TobitsSeq) : TobitsSeq :=
  match chr[q.regs.idx]? with
  | none => q
  | some c =>
    let h := { q.regs with outBits := q.regs.outBits ++ [bitOf c (7 - q.j)] }
    if q.j = 7 then ⟨0, h.nextIdx⟩ else ⟨q.j + 1, h⟩

/-- The step state of TOBYTES, `(IDX, v, OUT)`, with `IDX` counting bits (R123). -/
structure TobytesSeq where
  v : Nat
  regs : Hidden
deriving DecidableEq, Repr

/-- The start state `(0, 0, [])` (R123). -/
def TobytesSeq.start (h : Hidden) : TobytesSeq := ⟨0, { h with idx := 0, out := [] }⟩

/-- One step of TOBYTES: it takes one bit, and every eighth step appends `v` and clears it (R123). -/
def TobytesSeq.step (bits : List Bit) (q : TobytesSeq) : TobytesSeq :=
  match bits[q.regs.idx]? with
  | none => q
  | some x =>
    let v := accumulateBit q.v x
    let h := q.regs.nextIdx
    if h.idx % 8 = 0 then ⟨0, h.emit (BitVec.ofNat 8 v)⟩ else ⟨v, h⟩

end Sys2Proof.Machine
end

