-- ==== Sys2Proof/Safety.lean ====
section
/-! DEFINITION. The terms claims are made in: what a legal status is, which command reads and writes what, and the
cipher's outputs in a form independent of the loops of `Machine/CycleCipher.lean`. -/

namespace Sys2Proof.Machine

/-! ## Status -/

/-- "The model's `STATUS` takes only the six values 0x00, 0x08, 0x01, 0x02, 0x03, 0x04" (U9 of
93_implementation_defined.md, from R25 and R26). -/
def legalStatuses : List Byte := [0x00, 0x08, 0x01, 0x02, 0x03, 0x04]

/-- The invariant of the machine: `STATUS` holds a legal value. -/
def State.StatusLegal (s : State) : Prop := s.status ∈ legalStatuses

/-- A command can end with this value of `STATUS.ERR`. -/
def CanEndWith (i : Instr) (e : ErrCode) : Prop :=
  ∃ s t, exec i s = .next t ∧ t.errField = e.code

/-! ## Reads and writes (spec/20_memory.md R51) -/

/-- What the host sees of the block: everything but the hidden registers and the model's own fields (R20). -/
def State.SameToHost (s t : State) : Prop :=
  s.n = t.n ∧ s.status = t.status ∧ s.txt = t.txt ∧ s.chr = t.chr ∧ s.bit = t.bit ∧ s.pix = t.pix

/-- The commands whose row of R51 marks `N` as read. -/
def readsN : Instr → Bool
  | .cenc => true
  | .cdec => true
  | .tobits => false
  | .tobytes => false
  | .embed => false
  | .extract => false
  | .encb => true
  | .decb => true

/-- The spaces a command's row of R51 marks "r" or "rw". -/
def readSpaces : Instr → List Space
  | .cenc => [.txt]
  | .cdec => [.chr]
  | .tobits => [.chr]
  | .tobytes => [.bit]
  | .embed => [.bit, .pix]
  | .extract => [.pix]
  | .encb => [.txt]
  | .decb => [.bit]

/-- The spaces a command's row of R51 marks "w" or "rw". -/
def writtenSpaces : Instr → List Space
  | .cenc => [.chr]
  | .cdec => [.txt]
  | .tobits => [.bit]
  | .tobytes => [.chr]
  | .embed => [.pix]
  | .extract => [.bit]
  | .encb => [.chr, .bit]
  | .decb => [.txt, .chr]

/-- Two states give a command the same inputs. -/
def SameInputs (i : Instr) (s t : State) : Prop :=
  (readsN i = true → s.n = t.n) ∧ ∀ sp ∈ readSpaces i, s.buf sp = t.buf sp

/-! ## CENC, written forward (spec/40_cyclecipher.md R96, R98, R99) -/

/-- R96 lines 9 to 12: the fillers of `r` turns of the inner loop started at `cp`. -/
def fillersFrom (b : Build) (n : Nat) : Nat → Nat → List Byte
  | 0, _ => []
  | r + 1, cp => filler b (advance n cp) :: fillersFrom b n r (advance n cp)

/-- `CP` after `r` advances. -/
def advances (n : Nat) : Nat → Nat → Nat
  | 0, cp => cp
  | r + 1, cp => advances n r (advance n cp)

/-- R96 lines 4 to 15, from a text and the value of `CP` where it starts. -/
def encodeFrom (b : Build) (n : Nat) : List Byte → Nat → List Byte
  | [], cp => [shiftUp b.atCode cp, shiftUp b.atCode (advance n cp)]
  | c :: cs, cp =>
    let r := if b.isAlpha c then cp else 0
    shiftUp c cp :: (fillersFrom b n r cp ++ encodeFrom b n cs (advances n (r + 1) cp))

/-- The unshifted sequence `U` of R98, from output index `k` on. -/
def unshiftedFrom (b : Build) (n : Nat) : List Byte → Nat → List Byte
  | [], _ => [b.atCode, b.atCode]
  | c :: cs, k =>
    let r := if b.isAlpha c then k % (n + 1) else 0
    c :: ((List.range r).map (fun j => b.special[(k + 1 + j) % (n + 1) % 23]'(Nat.mod_lt _ (by decide)))
      ++ unshiftedFrom b n cs (k + 1 + r))

/-- `F` of R99, "the sum, over the letters of the text, of the value of `CP` when that letter was emitted", from
output index `k` on. -/
def fillerCountFrom (b : Build) (n : Nat) : List Byte → Nat → Nat
  | [], _ => 0
  | c :: cs, k =>
    let r := if b.isAlpha c then k % (n + 1) else 0
    r + fillerCountFrom b n cs (k + 1 + r)

/-! ## CDEC, by prefixes of its input (R100) -/

/-- The decoded codes `d` (R100 line 6): the byte at index `i` is shifted by `CP` after `i` advances from 0. -/
def decodedCodes (n : Nat) (chr : List Byte) : List Byte :=
  chr.mapIdx fun i x => shiftDown x (advances n i 0)

/-- `W` after `k` bytes, had the loop not stopped before (R100 lines 5 to 8). -/
def workAfter (b : Build) (n : Nat) (chr : List Byte) (k : Nat) : List Byte :=
  ((decodedCodes n chr).take k).filter b.isPrint

/-- `W` ends in the sentinel's two `AT` characters (R100 line 9). -/
def EndsInAtAt (b : Build) (w : List Byte) : Prop := [b.atCode, b.atCode] <:+ w

/-- The termination pair is matched somewhere in the input. -/
def SentinelFound (b : Build) (n : Nat) (chr : List Byte) : Prop :=
  ∃ k ≤ chr.length, EndsInAtAt b (workAfter b n chr k)

/-- A sequence without the characters of `SPECIAL` (R100 line 11). -/
def withoutSpecial (b : Build) (w : List Byte) : List Byte :=
  w.filter fun c => decide (∀ k : Fin 23, b.special[k] ≠ c)

/-- The first number of bytes after which `W` ends in the sentinel, where there is one: the loop stops there. -/
def stopIndex (b : Build) (n : Nat) (chr : List Byte) : Option Nat :=
  (List.range (chr.length + 1)).find? fun k => [b.atCode, b.atCode].isSuffixOf (workAfter b n chr k)

/-- The text CDEC writes and whether it stopped at the sentinel: the working result at the stop without its last
two characters, or all that was accumulated, and in both cases without the special symbols (R100). -/
def decodeByPrefix (b : Build) (n : Nat) (chr : List Byte) : List Byte × Bool :=
  match stopIndex b n chr with
  | some k => (withoutSpecial b (workAfter b n chr k).dropLast.dropLast, true)
  | none => (withoutSpecial b (workAfter b n chr chr.length), false)

/-! ## The round trip (R104) -/

/-- The hypotheses h1 to h6 of R104 on a build and a text. -/
structure Carriable (b : Build) (text : List Byte) : Prop where
  printable : ∀ c ∈ text, b.isPrint c = true
  notSpecial : ∀ c ∈ text, ∀ k : Fin 23, b.special[k] ≠ c
  atNotSpecial : ∀ k : Fin 23, b.special[k] ≠ b.atCode
  atPrintable : b.isPrint b.atCode = true
  noAtPair : ∀ i, ¬ (text[i]? = some b.atCode ∧ text[i + 1]? = some b.atCode)
  lastNotAt : text.getLast? ≠ some b.atCode

end Sys2Proof.Machine
end

