-- ==== Sys2Proof/Certificates/Slice0/Obligations.lean ====
section
/-! DEFINITION. The statements for the provers. `Config.build` has no body, so a statement about `exec` holds of
every build; a statement whose hypotheses speak of the build's parameters quantifies over builds instead.
After a command that completed, the hidden registers hold a free value (log entry 4): the statements say of
them, and of the model's draw counter, nothing. -/

open Sys2Proof Sys2Proof.Machine

/-! ## Command words, steps, reset -/

/-- R71: the word column, matched whole. -/
def Obligations.CommandWordsDecodeAsTheTableSays : Prop :=
  decode 0x01 = .ok .cenc ∧ decode 0x02 = .ok .cdec ∧ decode 0x03 = .ok .tobits ∧
  decode 0x04 = .ok .tobytes ∧ decode 0x05 = .ok .embed ∧ decode 0x06 = .ok .extract ∧
  decode 0x07 = .ok .encb ∧ decode 0x08 = .ok .decb ∧
  ∀ w : Byte, (w.toNat = 0 ∨ 9 ≤ w.toNat) → ∀ i, decode w ≠ .ok i

/-- Encoder and decoder agree in both directions. -/
def Obligations.DecodeAndEncodeAgree : Prop :=
  ∀ (w : Byte) (i : Instr), decode w = .ok i ↔ w = encode i

/-- R73, R171: an illegal word ends at once with `STATUS <- 0x04` and changes nothing else. -/
def Obligations.IllegalWordChangesOnlyStatus : Prop :=
  ∀ (s : State) (w : Byte) (rest : List HostAction),
    s.pending = .writeCmd w :: rest → (w.toNat = 0 ∨ 9 ≤ w.toNat) →
      step s = .next { s with pending := rest, status := 0x04 }

/-- A step in which the host writes a word that decodes is that command at the state with the action taken
off; and a word placed for the fetch is run by the very next step. -/
def Obligations.StepRunsTheDecodedCommand : Prop :=
  (∀ (s : State) (w : Byte) (i : Instr) (rest : List HostAction),
    s.pending = .writeCmd w :: rest → decode w = .ok i → step s = exec i { s with pending := rest }) ∧
  (∀ (s : State) (i : Instr), step (s.withFetchWord 8 (encode i).toNat) = exec i s)

/-- With no action of the host to come, the block stays as it is. The model's choice, log entry 7. -/
def Obligations.IdleStepChangesNothing : Prop :=
  ∀ s : State, s.pending = [] → step s = .next s

/-- R36: after reset `STATUS` is 0x00 and the four spaces are empty. The table leaves the other state
unspecified, and this says nothing of it. -/
def Obligations.ResetValuesAreTheTables : Prop :=
  State.reset.status = 0x00 ∧ State.reset.errField = ErrCode.ok.code ∧ State.reset.snfField = false ∧
  ∀ sp, State.reset.len sp = 0

/-- A reset between commands empties the spaces and clears `STATUS`, whatever the state was; the host's
further actions stay (log entry 8). -/
def Obligations.ResetActionRestoresTheTable : Prop :=
  ∀ (s : State) (rest : List HostAction), s.pending = .reset :: rest →
    ∃ t, step s = .next t ∧ t.status = 0x00 ∧ (∀ sp, t.len sp = 0) ∧ t.pending = rest

/-! ## The status register and errors -/

/-- Every step keeps `STATUS` at one of its six values. -/
def Obligations.EveryStepKeepsStatusLegal : Prop :=
  ∀ s t : State, s.StatusLegal → step s = .next t → t.StatusLegal

/-- `STATUS` is legal after reset. -/
def Obligations.ResetStatusIsLegal : Prop := State.reset.StatusLegal

/-- R25: the layout of `STATUS`; every command and every illegal word overwrites the whole of it, so that the
old value never matters; no other action of the host but reset writes it, and reading leaves it. -/
def Obligations.StatusIsOverwrittenWholeByCommandsOnly : Prop :=
  (∀ (e : ErrCode) (f : Bool) (s : State), s.status = statusWord e f →
    s.errField = e.code ∧ s.snfField = f ∧ s.statusReserved = 0) ∧
  (∀ (w : Byte) (s : State) (v : Byte), issue w { s with status := v } = issue w s) ∧
  (∀ (w : Byte) (s t : State), issue w s = .next t → t.statusReserved = 0) ∧
  (∀ (a : HostAction) (s t : State), a.isCommand = false → a ≠ .reset → hostAct a s = .next t →
    t.status = s.status)

/-- R26: which command can end with which code, HIDE and REVEAL included; an undefined word ends with 4, a
command ends with no other code than these, and the next command replaces the code whatever it was. -/
def Obligations.ErrorCodesHaveTheirCommands : Prop :=
  (ErrCode.ok.code = 0 ∧ ErrCode.capacity.code = 1 ∧ ErrCode.param.code = 2 ∧ ErrCode.align.code = 3 ∧
    ErrCode.illegal.code = 4) ∧
  (∀ i, CanEndWith i .ok) ∧
  (∀ i, CanEndWith i .capacity ↔ i = .embed) ∧
  (∀ i, CanEndWith i .param ↔ i = .cenc ∨ i = .cdec ∨ i = .encb ∨ i = .decb) ∧
  (∀ i, CanEndWith i .align ↔ i = .tobytes ∨ i = .decb) ∧
  (∀ i, ¬ CanEndWith i .illegal) ∧
  (∀ i s t, exec i s = .next t → t.errField.toNat ≤ 3) ∧
  (∀ e : BitVec 3, (∃ s, (hideIn Config.build s).errField = e) ↔ e = 0 ∨ e = 1 ∨ e = 2) ∧
  (∀ e : BitVec 3, (∃ s, (revealIn Config.build s).errField = e) ↔ e = 0 ∨ e = 2 ∨ e = 3) ∧
  (∀ (w : Byte) (s : State), (∀ i, decode w ≠ .ok i) → ∃ t, issue w s = .next t ∧ t.errField = 4) ∧
  (∀ (i : Instr) (s : State) (v : Byte), exec i { s with status := v } = exec i s)

/-- R27: `SNF` is 1 exactly after a CDEC (alone, or as the last stage of DECB or REVEAL) that ended OK without
matching the termination pair; every other command writes 0, and no command reads it. -/
def Obligations.SnfMarksAnUnmatchedSentinel : Prop :=
  (∀ s t, exec .cdec s = .next t →
    (t.snfField = true ↔ 0 ≤ s.n ∧ ¬ SentinelFound Config.build s.n.toNat s.chr)) ∧
  (∀ s t, exec .decb s = .next t →
    (t.snfField = true ↔ s.bit.length % 8 = 0 ∧ 0 ≤ s.n ∧
      ¬ SentinelFound Config.build s.n.toNat t.chr)) ∧
  (∀ s, (revealIn Config.build s).snfField = true ↔ s.pix.length % 8 = 0 ∧ 0 ≤ s.n ∧
      ¬ SentinelFound Config.build s.n.toNat (revealIn Config.build s).chr) ∧
  (∀ i s t, i ≠ .cdec → i ≠ .decb → exec i s = .next t → t.snfField = false) ∧
  (∀ s, (hideIn Config.build s).snfField = false) ∧
  (∀ i s t, exec i s = .next t → t.errField ≠ 0 → t.snfField = false) ∧
  (∀ (w : Byte) (s : State), (∀ i, decode w ≠ .ok i) → ∃ t, issue w s = .next t ∧ t.snfField = false) ∧
  (∀ (i : Instr) (s : State) (v : Byte), exec i { s with status := v } = exec i s)

/-- R168: `PARAM` is raised by CENC and CDEC exactly when `N < 0`, with nothing read or written, and never by
the commands that do not read `N`. -/
def Obligations.ParamIsRaisedExactlyOnNegativeN : Prop :=
  (∀ i s, i = .cenc ∨ i = .cdec →
    (s.n < 0 → exec i s = .next { s with status := 0x02 }) ∧
    (0 ≤ s.n → ∃ t, exec i s = .next t ∧ t.errField ≠ 2)) ∧
  (∀ i s t, i = .tobits ∨ i = .tobytes ∨ i = .embed ∨ i = .extract → exec i s = .next t → t.errField ≠ 2)

/-- R167: `CAPACITY` is raised by EMBED exactly when `BIT_LEN > PIX_LEN`, before its first write. -/
def Obligations.CapacityIsRaisedExactlyOnALongPayload : Prop :=
  ∀ s : State,
    (s.pix.length < s.bit.length → exec .embed s = .next { s with status := 0x01 }) ∧
    (s.bit.length ≤ s.pix.length → ∃ t, exec .embed s = .next t ∧ t.errField ≠ 1)

/-- R169: `ALIGN` is raised by TOBYTES exactly when `BIT_LEN` is not a multiple of 8, before any bit is
consumed. -/
def Obligations.AlignIsRaisedExactlyOnAPartialGroup : Prop :=
  ∀ s : State,
    (s.bit.length % 8 ≠ 0 → exec .tobytes s = .next { s with status := 0x03 }) ∧
    (s.bit.length % 8 = 0 → ∃ t, exec .tobytes s = .next t ∧ t.errField ≠ 3)

/-- R170, R177: a primitive command that ends with an error has written its code to `STATUS`, with `SNF` and the
reserved bits 0, and nothing else, the hidden registers included. -/
def Obligations.FatalErrorsArePrecise : Prop :=
  ∀ i s t, i ≠ .encb → i ≠ .decb → exec i s = .next t → t.errField ≠ 0 →
    t = { s with status := t.status } ∧ (t.status = 0x01 ∨ t.status = 0x02 ∨ t.status = 0x03)

/-- R176: at most one error condition in a primitive, `ILLEGAL` decided by the word alone, the first failing
stage reports in the composites, and the soft condition comes with `ERR = OK` only. -/
def Obligations.FirstFailingStageReports : Prop :=
  (∀ (w : Byte) (s : State) (v : Byte), (∀ i, decode w ≠ .ok i) → issue w { s with status := v } = .next { s with status := 0x04 }) ∧
  (∀ s t, exec .tobits s = .next t ∨ exec .extract s = .next t → t.errField = 0) ∧
  (∀ s t, exec .cenc s = .next t ∨ exec .cdec s = .next t ∨ exec .encb s = .next t →
    t.errField = if s.n < 0 then 2 else 0) ∧
  (∀ s t, exec .tobytes s = .next t → t.errField = if s.bit.length % 8 ≠ 0 then 3 else 0) ∧
  (∀ s t, exec .embed s = .next t → t.errField = if s.pix.length < s.bit.length then 1 else 0) ∧
  (∀ s t, exec .decb s = .next t →
    t.errField = if s.bit.length % 8 ≠ 0 then 3 else if s.n < 0 then 2 else 0) ∧
  (∀ s, (hideIn Config.build s).errField =
    if s.n < 0 then 2
    else if s.pix.length < 8 * (hideIn Config.build s).chr.length then 1 else 0) ∧
  (∀ s, (revealIn Config.build s).errField =
    if s.pix.length % 8 ≠ 0 then 3 else if s.n < 0 then 2 else 0) ∧
  (∀ i s t, exec i s = .next t → t.snfField = true → t.errField = 0)

/-! ## What every command reads and writes -/

/-- Every command may be issued in every state, and runs to its end. -/
def Obligations.EveryCommandEndsInEveryState : Prop :=
  ∀ (i : Instr) (s : State), ∃ t, exec i s = .next t

/-- R51's "w" and "rw" columns, on success and on error: a command writes no space its row does not mark, and
never `N`, the host's actions to come or `PIX_LEN`. -/
def Obligations.CommandsWriteOnlyTheirSpaces : Prop :=
  ∀ i s t, exec i s = .next t →
    t.n = s.n ∧ t.pending = s.pending ∧ t.len .pix = s.len .pix ∧
    ∀ sp, sp ∉ writtenSpaces i → t.buf sp = s.buf sp

/-- R51's "r" and "rw" columns: two states that agree on what a command's row marks as read get the same
`STATUS`, and in every space the row marks as written either the same new contents or none. -/
def Obligations.CommandsReadOnlyTheirInputs : Prop :=
  ∀ i s₁ s₂ t₁ t₂, SameInputs i s₁ s₂ → exec i s₁ = .next t₁ → exec i s₂ = .next t₂ →
    t₁.status = t₂.status ∧
    ∀ sp ∈ writtenSpaces i, t₁.buf sp = t₂.buf sp ∨ (t₁.buf sp = s₁.buf sp ∧ t₂.buf sp = s₂.buf sp)

/-- "No state persists across calls": what an earlier command left in the hidden registers changes nothing the
host can see. -/
def Obligations.HiddenRegistersNeverReachTheHost : Prop :=
  ∀ (i : Instr) (s : State) (h : Hidden) (d : Nat) (t u : State), exec i s = .next t → exec i { s with hidden := h, freeDraws := d } = .next u →
    t.SameToHost u

/-! ## Unit CC -/

/-- R96: CENC, both outcomes, with its frame. `encodeFrom` is lines 4 to 15 read forward. -/
def Obligations.CencEncodesAsR96 : Prop :=
  ∀ s : State,
    (s.n < 0 → exec .cenc s = .next { s with status := 0x02 }) ∧
    (∀ n : Nat, s.n = n → ∃ h d, exec .cenc s =
      .next { s with
        chr := encodeFrom Config.build n s.txt 0, status := 0x00, hidden := h, freeDraws := d })

/-- R98's law, the spec's inference from R96: the output character at index `k` is the unshifted one, shifted by
`k mod (n + 1)`. -/
def Obligations.CencShiftsByOutputIndex : Prop :=
  ∀ (b : Build) (s : State) (n : Nat), s.n = n →
    (cencIn b s).chr = (unshiftedFrom b n s.txt 0).mapIdx fun k u => shiftUp u (k % (n + 1))

/-- R99's law, the spec's inference from R96: `CHR_LEN = TXT_LEN + 2 + F` with `F` at most `n` for each letter. -/
def Obligations.CencLengthLaw : Prop :=
  ∀ (b : Build) (s : State) (n : Nat), s.n = n →
    (cencIn b s).chr.length = s.txt.length + 2 + fillerCountFrom b n s.txt 0 ∧
    fillerCountFrom b n s.txt 0 ≤ n * s.txt.countP b.isAlpha

/-- R96 corner case (c): with `n = 0` "the cipher degenerates to identity-with-sentinel". -/
def Obligations.CencWithZeroIsIdentityWithSentinel : Prop :=
  ∀ s : State, s.n = 0 → ∃ h d, exec .cenc s =
    .next { s with
      chr := s.txt ++ [Config.build.atCode, Config.build.atCode], status := 0x00, hidden := h,
      freeDraws := d }

/-- R90: both commands start `CP` at 0, every step of either advances it only by `(CP + 1) mod (n + 1)` (a CENC
step none, one or two times), and `CP <= n` at every point. -/
def Obligations.CyclePositionStaysWithinThePeriod : Prop :=
  ∀ (b : Build) (n : Nat) (inp : List Byte) (h : Hidden),
    (CencSeq.start h).regs.cp = 0 ∧ (CdecSeq.start h).regs.cp = 0 ∧
    (∀ q, ∃ j ≤ 2, (CencSeq.step b n inp q).regs.cp = advances n j q.regs.cp) ∧
    (∀ q, ∃ j ≤ 1, (CdecSeq.step b n inp q).regs.cp = advances n j q.regs.cp) ∧
    (∀ k, ((CencSeq.step b n inp)^[k] (CencSeq.start h)).regs.cp ≤ n) ∧
    (∀ k, ((CdecSeq.step b n inp)^[k] (CdecSeq.start h)).regs.cp ≤ n)

/-- R97, the spec's inference from R96: the CENC step machine appends exactly one character a step, reaches
`DONE` after exactly `CHR_LEN` steps and not before, and has then built what CENC writes. -/
def Obligations.CencStepMachineBuildsTheOutput : Prop :=
  ∀ (b : Build) (s : State) (n : Nat), s.n = n →
    let run := fun k => (CencSeq.step b n s.txt)^[k] (CencSeq.start s.hidden)
    (run (cencIn b s).chr.length).phase = .done ∧
    (run (cencIn b s).chr.length).regs.out = (cencIn b s).chr ∧
    ∀ k ≤ (cencIn b s).chr.length, (run k).regs.out.length = k ∧
      (k < (cencIn b s).chr.length → (run k).phase ≠ .done)

/-- R100: CDEC, both outcomes, with its frame. With `n >= 0` it writes to `TXT` what `decodeByPrefix` says and to
`STATUS` 0x00 when it stopped at the sentinel and 0x08 when it did not: in no case an error. -/
def Obligations.CdecDecodesAsR100 : Prop :=
  ∀ s : State,
    (s.n < 0 → exec .cdec s = .next { s with status := 0x02 }) ∧
    (∀ n : Nat, s.n = n → ∃ h d, exec .cdec s =
      .next { s with
        txt := (decodeByPrefix Config.build n s.chr).1,
        status := if (decodeByPrefix Config.build n s.chr).2 then 0x00 else 0x08,
        hidden := h, freeDraws := d })

/-- R100 corner case (b): bytes after the sentinel are never read. -/
def Obligations.BytesAfterTheSentinelAreIgnored : Prop :=
  ∀ (b : Build) (s : State) (extra : List Byte), (cdecIn b s).status = 0x00 →
    (cdecIn b { s with chr := s.chr ++ extra }).txt = (cdecIn b s).txt ∧
    (cdecIn b { s with chr := s.chr ++ extra }).status = 0x00

/-- R101, the spec's inference from R100: after `k` steps of the CDEC machine that has not stopped, `IDX = k` and
`CP = IDX mod (n + 1)`; after `CHR_LEN` steps it has built what CDEC writes. -/
def Obligations.CdecStepMachineBuildsTheText : Prop :=
  ∀ (b : Build) (s : State) (n : Nat), s.n = n →
    let run := fun k => (CdecSeq.step b n s.chr)^[k] (CdecSeq.start s.hidden)
    (∀ k ≤ s.chr.length, (run k).found = false →
      (run k).regs.idx = k ∧ (run k).regs.cp = (run k).regs.idx % (n + 1)) ∧
    (cdecIn b s).txt = withoutSpecial b (run s.chr.length).regs.w ∧
    (cdecIn b s).status = if (run s.chr.length).found then 0x00 else 0x08

/-- R104, the spec's inference: a text that meets h1 to h6 comes back from CENC and CDEC, with or without
further elements after the encoded stream. -/
def Obligations.CipherRoundTrip : Prop :=
  ∀ (b : Build) (s : State) (extra : List Byte), 0 ≤ s.n → Carriable b s.txt →
    let t := cencIn b s
    (cdecIn b { t with chr := t.chr ++ extra }).txt = s.txt ∧
    (cdecIn b { t with chr := t.chr ++ extra }).status = 0x00

/-- R157 (1): the two shifts reduce exact integers modulo 256 and undo each other. -/
def Obligations.ShiftsAreExactAndInverse : Prop :=
  ∀ (c : Byte) (cp : Nat),
    ((shiftUp c cp).toNat : Int) = ((c.toNat : Int) + cp) % 256 ∧
    ((shiftDown c cp).toNat : Int) = ((c.toNat : Int) - cp) % 256 ∧
    shiftDown (shiftUp c cp) cp = c

/-! ## Unit BP -/

/-- R121: TOBITS gives `BIT[8k + j] = CHR[k][7 - j]` and `BIT_LEN = 8 * CHR_LEN`, and writes nothing else but
`STATUS`. -/
def Obligations.TobitsExpandsMostSignificantBitFirst : Prop :=
  ∀ s : State, ∃ (bits : List Bit) (h : Hidden) (d : Nat),
    exec .tobits s = .next { s with bit := bits, status := 0x00, hidden := h, freeDraws := d } ∧
    bits.length = 8 * s.chr.length ∧
    ∀ k c, s.chr[k]? = some c → ∀ j < 8, bits[8 * k + j]? = some (bitOf c (7 - j))

/-- R122: TOBYTES gives `CHR[k]` as the sum of `BIT[8k + j] * 2^(7 - j)` and `CHR_LEN = BIT_LEN / 8`, or raises
`ALIGN` with nothing but `STATUS` written. -/
def Obligations.TobytesReassemblesBigEndian : Prop :=
  ∀ s : State,
    (s.bit.length % 8 ≠ 0 → exec .tobytes s = .next { s with status := 0x03 }) ∧
    (s.bit.length % 8 = 0 → ∃ (bytes : List Byte) (h : Hidden) (d : Nat),
      exec .tobytes s = .next { s with chr := bytes, status := 0x00, hidden := h, freeDraws := d } ∧
      bytes.length = s.bit.length / 8 ∧
      ∀ k, k < bytes.length → ∃ v : Byte, bytes[k]? = some v ∧
        v.toNat = ((List.range 8).map fun j => (s.bit[8 * k + j]?.getD 0).toNat * 2 ^ (7 - j)).sum)

/-- R124, the spec's inference: TOBYTES after TOBITS gives the bytes back and never raises `ALIGN`, and TOBITS
after a TOBYTES that succeeded gives the bits back. -/
def Obligations.TobitsAndTobytesAreInverse : Prop :=
  (∀ s : State, (tobytes (tobits s)).chr = s.chr ∧ (tobytes (tobits s)).status = 0x00) ∧
  (∀ s : State, s.bit.length % 8 = 0 → (tobits (tobytes s)).bit = s.bit)

/-- R125: `BIT_LEN = 8 * CHR_LEN` after TOBITS, so always a multiple of 8 after TOBITS and after an ENCB that
completed; EXTRACT's sequence has the carrier's length instead. -/
def Obligations.BitLengthLaw : Prop :=
  (∀ s t, exec .tobits s = .next t → t.len .bit = 8 * t.len .chr ∧ t.len .bit % 8 = 0) ∧
  (∀ s t, exec .encb s = .next t → t.errField = 0 → t.len .bit = 8 * t.len .chr ∧ t.len .bit % 8 = 0) ∧
  (∀ s t, exec .extract s = .next t → t.len .bit = s.len .pix)

/-- R123, the spec's inference: the bit-a-step machines of TOBITS and TOBYTES build, in `8 * CHR_LEN` and in
`BIT_LEN` steps, what the commands write. -/
def Obligations.BitStepMachinesBuildTheOutputs : Prop :=
  (∀ s : State, ((TobitsSeq.step s.chr)^[8 * s.chr.length] (TobitsSeq.start s.hidden)).regs.outBits
      = (tobits s).bit) ∧
  (∀ s : State, s.bit.length % 8 = 0 →
    ((TobytesSeq.step s.bit)^[s.bit.length] (TobytesSeq.start s.hidden)).regs.out = (tobytes s).chr)

/-! ## Unit PX -/

/-- R136: EMBED replaces bit 0 of the first `BIT_LEN` carrier elements, keeps bits 7 to 1 of every element and
the whole of the others, and writes nothing else but `STATUS`; on `CAPACITY` only `STATUS`. -/
def Obligations.EmbedReplacesLeastSignificantBits : Prop :=
  ∀ s : State,
    (s.pix.length < s.bit.length → exec .embed s = .next { s with status := 0x01 }) ∧
    (s.bit.length ≤ s.pix.length → ∃ (pix : List Byte) (h : Hidden) (d : Nat),
      exec .embed s = .next { s with pix := pix, status := 0x00, hidden := h, freeDraws := d } ∧
      pix.length = s.pix.length ∧
      ∀ (i : Nat) (p : Byte), s.pix[i]? = some p → ∃ q : Byte, pix[i]? = some q ∧
        q.extractLsb' 1 7 = p.extractLsb' 1 7 ∧
        (∀ x, s.bit[i]? = some x → bitOf q 0 = x) ∧
        (s.bit.length ≤ i → q = p))

/-- R138: on a carrier of one element EMBED keeps the upper seven bits and sets the lowest. -/
def Obligations.EmbedIsolatesTheLsb : Prop :=
  ∀ (s : State) (v : Byte) (x : Bit), s.pix = [v] → s.bit = [x] →
    ∃ t v', exec .embed s = .next t ∧ t.pix = [v'] ∧ v'.extractLsb' 1 7 = v.extractLsb' 1 7 ∧ bitOf v' 0 = x

/-- EMBED run twice with the same `BIT` leaves `PIX` and `STATUS` as after the first run. -/
def Obligations.EmbedIsIdempotent : Prop :=
  ∀ s t u : State, exec .embed s = .next t → exec .embed t = .next u → u.pix = t.pix ∧ u.status = t.status

/-- R137: EXTRACT gives bit 0 of every carrier element, as many bits as the carrier has elements, and writes
nothing else but `STATUS`. -/
def Obligations.ExtractReadsTheWholeCarrier : Prop :=
  ∀ s : State, ∃ (bits : List Bit) (h : Hidden) (d : Nat),
    exec .extract s = .next { s with bit := bits, status := 0x00, hidden := h, freeDraws := d } ∧
    bits.length = s.pix.length ∧ ∀ (i : Nat) (p : Byte), s.pix[i]? = some p → bits[i]? = some (bitOf p 0)

/-- R139, the spec's inference: EXTRACT after an EMBED that succeeded gives the payload back as a prefix, and
beyond it the carrier's own least-significant bits. -/
def Obligations.ExtractRecoversTheEmbeddedBits : Prop :=
  ∀ s : State, s.bit.length ≤ s.pix.length →
    (extract (embed s)).bit.take s.bit.length = s.bit ∧
    ∀ (i : Nat) (p : Byte), s.bit.length ≤ i → s.pix[i]? = some p → (extract (embed s)).bit[i]? = some (bitOf p 0)

/-! ## Composites, pseudo-instructions, scripts -/

/-- R151: ENCB is CENC and then TOBITS; on `PARAM` nothing but `STATUS` is written. -/
def Obligations.EncbRunsCencThenTobits : Prop :=
  ∀ s : State,
    (s.n < 0 → exec .encb s = .next { s with status := 0x02 }) ∧
    (∀ n : Nat, s.n = n → ∃ t bits h d,
      exec .cenc s = .next t ∧ exec .tobits t = exec .encb s ∧
      exec .encb s = .next { s with
        chr := encodeFrom Config.build n s.txt 0, bit := bits, status := 0x00, hidden := h,
        freeDraws := d } ∧
      bits = (encodeFrom Config.build n s.txt 0).flatMap
        fun c => (List.range 8).map fun j => bitOf c (7 - j))

/-- R152: DECB is TOBYTES and then CDEC; `ALIGN` writes nothing but `STATUS`, and `PARAM` comes after stage 1
has written `CHR`. -/
def Obligations.DecbRunsTobytesThenCdec : Prop :=
  ∀ s : State,
    (s.bit.length % 8 ≠ 0 → exec .decb s = .next { s with status := 0x03 }) ∧
    (s.bit.length % 8 = 0 → ∃ t, exec .tobytes s = .next t ∧ exec .decb s = exec .cdec t ∧
      (s.n < 0 → exec .decb s = .next { t with status := 0x02 }) ∧
      (0 ≤ s.n → ∃ text v h d,
        exec .decb s = .next { t with txt := text, status := v, hidden := h, freeDraws := d } ∧
        (v = 0x00 ∨ v = 0x08)))

/-- R153, the spec's inference: the three outcomes of HIDE, in every build. On success the carrier takes the payload
as EMBED's rule R136 says: low bits only, and no element beyond the payload. -/
def Obligations.HideOutcomes : Prop :=
  ∀ (b : Build) (s : State),
    (s.n < 0 → hideIn b s = { s with status := 0x02 }) ∧
    (∀ n : Nat, s.n = n →
      (s.pix.length < 8 * (encodeFrom b n s.txt 0).length → ∃ h d, hideIn b s =
        { s with
          chr := encodeFrom b n s.txt 0, bit := (encodeFrom b n s.txt 0).flatMap charBits, status := 0x01,
          hidden := h, freeDraws := d }) ∧
      (8 * (encodeFrom b n s.txt 0).length ≤ s.pix.length → ∃ pix h d, hideIn b s =
        { s with
          chr := encodeFrom b n s.txt 0, bit := (encodeFrom b n s.txt 0).flatMap charBits, pix := pix,
          status := 0x00, hidden := h, freeDraws := d } ∧
        pix = embedLsbs s.pix ((encodeFrom b n s.txt 0).flatMap charBits) ∧
        pix.length = s.pix.length ∧
        ∀ (i : Nat) (p : Byte), s.pix[i]? = some p → ∃ q : Byte, pix[i]? = some q ∧
          q.extractLsb' 1 7 = p.extractLsb' 1 7 ∧
          (∀ x, ((encodeFrom b n s.txt 0).flatMap charBits)[i]? = some x → bitOf q 0 = x) ∧
          (8 * (encodeFrom b n s.txt 0).length ≤ i → q = p)))

/-- R154, the spec's inference: the outcomes of REVEAL, in every build. In the last one the text and `STATUS` are
those CDEC gives for the bytes (R100). -/
def Obligations.RevealOutcomes : Prop :=
  ∀ (b : Build) (s : State),
    (s.pix.length % 8 ≠ 0 → ∃ h d, revealIn b s =
      { s with bit := s.pix.map (bitOf · 0), status := 0x03, hidden := h, freeDraws := d }) ∧
    (s.pix.length % 8 = 0 → s.n < 0 → ∃ bytes h d, revealIn b s =
      { s with bit := s.pix.map (bitOf · 0), chr := bytes, status := 0x02, hidden := h, freeDraws := d } ∧
      bytes.flatMap charBits = s.pix.map (bitOf · 0)) ∧
    (s.pix.length % 8 = 0 → ∀ n : Nat, s.n = n → ∃ bytes h d, revealIn b s =
      { s with
        bit := s.pix.map (bitOf · 0), chr := bytes, txt := (decodeByPrefix b n bytes).1,
        status := if (decodeByPrefix b n bytes).2 then 0x00 else 0x08, hidden := h, freeDraws := d } ∧
      bytes.flatMap charBits = s.pix.map (bitOf · 0))

/-- R78, and R153 and R154 where they compare: the script lines HIDE and REVEAL run the expansions and are the
same as ENCB then EMBED and as EXTRACT then DECB. -/
def Obligations.PseudoInstructionsAreTheirExpansions : Prop :=
  ∀ s : State,
    runScript [.hide] s = .next (hideIn Config.build s) ∧
    runScript [.hide] s = runScript [.command .cenc, .command .tobits, .command .embed] s ∧
    runScript [.hide] s = runScript [.command .encb, .command .embed] s ∧
    runScript [.reveal] s = .next (revealIn Config.build s) ∧
    runScript [.reveal] s = runScript [.command .extract, .command .tobytes, .command .cdec] s ∧
    runScript [.reveal] s = runScript [.command .extract, .command .decb] s

/-- R155, the spec's inference: HIDE and then REVEAL give the text back, whatever the carrier's values were. -/
def Obligations.EndToEndRoundTrip : Prop :=
  ∀ (b : Build) (s : State), 0 ≤ s.n → Carriable b s.txt →
    8 * (cencIn b s).chr.length ≤ s.pix.length → s.pix.length % 8 = 0 →
    (revealIn b (hideIn b s)).txt = s.txt ∧ (revealIn b (hideIn b s)).status = 0x00

/-- R79 and R77: a script goes on after a command that ended OK and stops after the first one that did not; `SET`,
`LOAD` and comment lines do what R77's table says and are followed by the rest; and a command word written after an
error is run all the same. That the lines after a failed HIDE or REVEAL are not run either, although program P3 goes
on there, is the model's choice, log entry 9; a string line takes ASCII characters only, log entry 10; a length may
be set to the current one, log entry 17, and setting it higher is refused by name, log entry 16. -/
def Obligations.ScriptsStopAfterTheFirstError : Prop :=
  (∀ (i : Instr) (lines : List ScriptLine) (s t : State), lines.all ScriptLine.wf = true →
    exec i s = .next t →
      (t.endedOk = true → runScript (.command i :: lines) s = runScript lines t) ∧
      (t.endedOk = false → runScript (.command i :: lines) s = .next t)) ∧
  (∀ (lines : List ScriptLine) (s : State),
    runScript (.hide :: lines) s = runScript (.command .cenc :: .command .tobits :: .command .embed :: lines) s ∧
    runScript (.reveal :: lines) s =
      runScript (.command .extract :: .command .tobytes :: .command .cdec :: lines) s) ∧
  (∀ (lines : List ScriptLine) (s : State), lines.all ScriptLine.wf = true →
    (∀ v, runScript (.setN v :: lines) s = runScript lines { s with n := v }) ∧
    (∀ k ≤ s.txt.length, runScript (.setLen .txt k :: lines) s = runScript lines { s with txt := s.txt.take k }) ∧
    (∀ k ≤ s.chr.length, runScript (.setLen .chr k :: lines) s = runScript lines { s with chr := s.chr.take k }) ∧
    (∀ k ≤ s.bit.length, runScript (.setLen .bit k :: lines) s = runScript lines { s with bit := s.bit.take k }) ∧
    (∀ k ≤ s.pix.length, runScript (.setLen .pix k :: lines) s = runScript lines { s with pix := s.pix.take k }) ∧
    (∀ sp k, s.len sp < k → runScript (.setLen sp k :: lines) s = .refused .lengthRaised) ∧
    (∀ xs, runScript (.loadValues (.txt xs) :: lines) s = runScript lines { s with txt := xs }) ∧
    (∀ xs, runScript (.loadValues (.chr xs) :: lines) s = runScript lines { s with chr := xs }) ∧
    (∀ xs, runScript (.loadValues (.bit xs) :: lines) s = runScript lines { s with bit := xs }) ∧
    (∀ xs, runScript (.loadValues (.pix xs) :: lines) s = runScript lines { s with pix := xs }) ∧
    (∀ cs : List Char, (∀ c ∈ cs, c.toNat < 128) →
      runScript (.loadString .txt cs :: lines) s =
        runScript lines { s with txt := cs.map fun c => BitVec.ofNat 8 c.toNat } ∧
      runScript (.loadString .chr cs :: lines) s =
        runScript lines { s with chr := cs.map fun c => BitVec.ofNat 8 c.toNat }) ∧
    (∀ text, runScript (.comment text :: lines) s = runScript lines s)) ∧
  (∀ (l : ScriptLine) (lines : List ScriptLine) (s t : State), lines.all ScriptLine.wf = true →
    (∀ i, l ≠ .command i) → l ≠ .hide → l ≠ .reveal → runScript [l] s = .next t →
      runScript (l :: lines) s = runScript lines t) ∧
  (∀ (i : Instr) (w : Byte) (s : State), decode w = .ok i → issue w s = exec i s)

/-! ## The host port -/

/-- R38's actions: `N` is written whole, a load replaces a space and leaves the rest, a length at or below the
current one truncates, and reads, that of one element at a valid index among them (20 R57), change nothing. That a
length may be written with its current value is log entry 17: R77 allows it, while R38 speaks of lowering. -/
def Obligations.HostActionsDoWhatTheInterfaceSays : Prop :=
  ∀ (s : State) (a : HostAction) (rest : List HostAction), s.pending = a :: rest →
    (∀ v, a = .writeN v → step s = .next { s with n := v, pending := rest }) ∧
    (∀ q, a = .load q → ∃ t, step s = .next t ∧ t.n = s.n ∧ t.status = s.status ∧ t.pending = rest ∧
      t.buf q.space = q ∧ ∀ sp, sp ≠ q.space → t.buf sp = s.buf sp) ∧
    (∀ sp k, a = .writeLen sp k → k ≤ s.len sp → ∃ t, step s = .next t ∧ t.n = s.n ∧
      t.status = s.status ∧ t.pending = rest ∧ t.len sp = k ∧
      (∀ i < k, t.memRead sp i = s.memRead sp i) ∧ ∀ sp' ≠ sp, t.buf sp' = s.buf sp') ∧
    (∀ sp i, a = .readElem sp i → i < s.len sp → step s = .next { s with pending := rest } ∧
      ∃ e, s.memRead sp i = some e ∧ readElem sp i s = .ok (.elem e)) ∧
    ((a = .readReg 1 ∨ a = .readReg 2 ∨ a = .readReg 3 ∨ a = .readReg 4 ∨ a = .readReg 5 ∨ a = .readReg 6 ∨
      ∃ sp, a = .readBuf sp) → step s = .next { s with pending := rest })

/-- R30's numbers and accesses: what a read of the register of each number gives and what a write to it does. That
the accesses the table does not give (a read of 0, a write of 1, any access to 7 or above) are refused by name is
log entry 16, and that a value outside the register's type is refused is log entry 20. -/
def Obligations.RegisterNumbersNameTheTable : Prop :=
  (∀ s : State,
    readReg 1 s = .ok (.status s.status) ∧ readReg 2 s = .ok (.n s.n) ∧
    readReg 3 s = .ok (.len s.txt.length) ∧ readReg 4 s = .ok (.len s.chr.length) ∧
    readReg 5 s = .ok (.len s.bit.length) ∧ readReg 6 s = .ok (.len s.pix.length) ∧
    readReg 0 s = .error .cmdRead ∧ ∀ num, 7 ≤ num → readReg num s = .error .noSuchRegister) ∧
  (∀ s : State,
    (∀ w : Byte, hostAct (.writeReg 0 w.toNat) s = issue w s) ∧
    (∀ v : Int, v < 0 ∨ 256 ≤ v → hostAct (.writeReg 0 v) s = .refused .valueNotOfRegister) ∧
    (∀ v, hostAct (.writeReg 1 v) s = .refused .statusWrite) ∧
    (∀ v, hostAct (.writeReg 2 v) s = .next { s with n := v }) ∧
    (∀ k : Nat,
      hostAct (.writeReg 3 k) s = hostAct (.writeLen .txt k) s ∧
      hostAct (.writeReg 4 k) s = hostAct (.writeLen .chr k) s ∧
      hostAct (.writeReg 5 k) s = hostAct (.writeLen .bit k) s ∧
      hostAct (.writeReg 6 k) s = hostAct (.writeLen .pix k) s) ∧
    (∀ num v, 3 ≤ num → num ≤ 6 → v < 0 → hostAct (.writeReg num v) s = .refused .valueNotOfRegister) ∧
    ∀ num v, 7 ≤ num → hostAct (.writeReg num v) s = .refused .noSuchRegister)

/-- R182: the model refuses only host actions outside the interface, it refuses every one of these, each under its
own name, and no step ends in any other stop. Raising a length, reading at or beyond it and reading `CMD` are the
spec's U4 and U6; that a register number of 7 or above and a write of `STATUS` are refused too is log entry 16, and
that a value outside the register's type is, log entry 20. -/
def Obligations.OnlyOutsideActionsAreRefused : Prop :=
  (∀ s : State, (∃ t, step s = .next t) ∨
    ∃ a rest, s.pending = a :: rest ∧
      ((∃ sp k, a = .writeLen sp k ∧ s.len sp < k ∧ step s = .refused .lengthRaised) ∨
       (∃ num sp, ∃ k : Nat, a = .writeReg num k ∧ regOfNumber num = some (.len sp) ∧ s.len sp < k ∧
         step s = .refused .lengthRaised) ∨
       (∃ sp i, a = .readElem sp i ∧ s.len sp ≤ i ∧ step s = .refused .indexBeyondLength) ∨
       (a = .readReg 0 ∧ step s = .refused .cmdRead) ∨
       (∃ num, 7 ≤ num ∧ (a = .readReg num ∨ ∃ v, a = .writeReg num v) ∧ step s = .refused .noSuchRegister) ∨
       (((∃ v, a = .writeStatus v) ∨ ∃ v, a = .writeReg 1 v) ∧ step s = .refused .statusWrite) ∨
       (∃ num v, a = .writeReg num v ∧ num ≤ 6 ∧ step s = .refused .valueNotOfRegister ∧
         (num = 0 ∧ (v < 0 ∨ 256 ≤ v) ∨ 3 ≤ num ∧ v < 0)))) ∧
  (∀ (s : State) (a : HostAction) (rest : List HostAction), s.pending = a :: rest →
    (∀ sp k, a = .writeLen sp k → s.len sp < k → step s = .refused .lengthRaised) ∧
    (∀ num sp, ∀ k : Nat, a = .writeReg num k → regOfNumber num = some (.len sp) → s.len sp < k →
      step s = .refused .lengthRaised) ∧
    (∀ sp i, a = .readElem sp i → s.len sp ≤ i → step s = .refused .indexBeyondLength) ∧
    (a = .readReg 0 → step s = .refused .cmdRead) ∧
    (∀ num, 7 ≤ num → a = .readReg num → step s = .refused .noSuchRegister) ∧
    (∀ num v, 7 ≤ num → a = .writeReg num v → step s = .refused .noSuchRegister) ∧
    (∀ v, a = .writeStatus v → step s = .refused .statusWrite) ∧
    (∀ v, a = .writeReg 1 v → step s = .refused .statusWrite) ∧
    (∀ v, v < 0 ∨ 256 ≤ v → a = .writeReg 0 v → step s = .refused .valueNotOfRegister) ∧
    ∀ num v, 3 ≤ num → num ≤ 6 → v < 0 → a = .writeReg num v → step s = .refused .valueNotOfRegister)
end

