-- ==== Sys2Proof/Laws/State.lean ====
section
/-! SUPPORT. One lemma per field per update of the state: every field after every named update. -/

namespace Sys2Proof.Machine

variable (s : State)

/-! ### `setN` -/

@[simp] theorem State.setN_n (v : Int) : (s.setN v).n = v := rfl
@[simp] theorem State.setN_status (v : Int) : (s.setN v).status = s.status := rfl
@[simp] theorem State.setN_txt (v : Int) : (s.setN v).txt = s.txt := rfl
@[simp] theorem State.setN_chr (v : Int) : (s.setN v).chr = s.chr := rfl
@[simp] theorem State.setN_bit (v : Int) : (s.setN v).bit = s.bit := rfl
@[simp] theorem State.setN_pix (v : Int) : (s.setN v).pix = s.pix := rfl
@[simp] theorem State.setN_hidden (v : Int) : (s.setN v).hidden = s.hidden := rfl
@[simp] theorem State.setN_freeDraws (v : Int) : (s.setN v).freeDraws = s.freeDraws := rfl
@[simp] theorem State.setN_pending (v : Int) : (s.setN v).pending = s.pending := rfl

/-! ### `setStatus` -/

@[simp] theorem State.setStatus_n (v : Byte) : (s.setStatus v).n = s.n := rfl
@[simp] theorem State.setStatus_status (v : Byte) : (s.setStatus v).status = v := rfl
@[simp] theorem State.setStatus_txt (v : Byte) : (s.setStatus v).txt = s.txt := rfl
@[simp] theorem State.setStatus_chr (v : Byte) : (s.setStatus v).chr = s.chr := rfl
@[simp] theorem State.setStatus_bit (v : Byte) : (s.setStatus v).bit = s.bit := rfl
@[simp] theorem State.setStatus_pix (v : Byte) : (s.setStatus v).pix = s.pix := rfl
@[simp] theorem State.setStatus_hidden (v : Byte) : (s.setStatus v).hidden = s.hidden := rfl
@[simp] theorem State.setStatus_freeDraws (v : Byte) : (s.setStatus v).freeDraws = s.freeDraws := rfl
@[simp] theorem State.setStatus_pending (v : Byte) : (s.setStatus v).pending = s.pending := rfl

/-! ### `setTxt` -/

@[simp] theorem State.setTxt_n (xs : List Byte) : (s.setTxt xs).n = s.n := rfl
@[simp] theorem State.setTxt_status (xs : List Byte) : (s.setTxt xs).status = s.status := rfl
@[simp] theorem State.setTxt_txt (xs : List Byte) : (s.setTxt xs).txt = xs := rfl
@[simp] theorem State.setTxt_chr (xs : List Byte) : (s.setTxt xs).chr = s.chr := rfl
@[simp] theorem State.setTxt_bit (xs : List Byte) : (s.setTxt xs).bit = s.bit := rfl
@[simp] theorem State.setTxt_pix (xs : List Byte) : (s.setTxt xs).pix = s.pix := rfl
@[simp] theorem State.setTxt_hidden (xs : List Byte) : (s.setTxt xs).hidden = s.hidden := rfl
@[simp] theorem State.setTxt_freeDraws (xs : List Byte) : (s.setTxt xs).freeDraws = s.freeDraws := rfl
@[simp] theorem State.setTxt_pending (xs : List Byte) : (s.setTxt xs).pending = s.pending := rfl

/-! ### `setChr` -/

@[simp] theorem State.setChr_n (xs : List Byte) : (s.setChr xs).n = s.n := rfl
@[simp] theorem State.setChr_status (xs : List Byte) : (s.setChr xs).status = s.status := rfl
@[simp] theorem State.setChr_txt (xs : List Byte) : (s.setChr xs).txt = s.txt := rfl
@[simp] theorem State.setChr_chr (xs : List Byte) : (s.setChr xs).chr = xs := rfl
@[simp] theorem State.setChr_bit (xs : List Byte) : (s.setChr xs).bit = s.bit := rfl
@[simp] theorem State.setChr_pix (xs : List Byte) : (s.setChr xs).pix = s.pix := rfl
@[simp] theorem State.setChr_hidden (xs : List Byte) : (s.setChr xs).hidden = s.hidden := rfl
@[simp] theorem State.setChr_freeDraws (xs : List Byte) : (s.setChr xs).freeDraws = s.freeDraws := rfl
@[simp] theorem State.setChr_pending (xs : List Byte) : (s.setChr xs).pending = s.pending := rfl

/-! ### `setBit` -/

@[simp] theorem State.setBit_n (xs : List Bit) : (s.setBit xs).n = s.n := rfl
@[simp] theorem State.setBit_status (xs : List Bit) : (s.setBit xs).status = s.status := rfl
@[simp] theorem State.setBit_txt (xs : List Bit) : (s.setBit xs).txt = s.txt := rfl
@[simp] theorem State.setBit_chr (xs : List Bit) : (s.setBit xs).chr = s.chr := rfl
@[simp] theorem State.setBit_bit (xs : List Bit) : (s.setBit xs).bit = xs := rfl
@[simp] theorem State.setBit_pix (xs : List Bit) : (s.setBit xs).pix = s.pix := rfl
@[simp] theorem State.setBit_hidden (xs : List Bit) : (s.setBit xs).hidden = s.hidden := rfl
@[simp] theorem State.setBit_freeDraws (xs : List Bit) : (s.setBit xs).freeDraws = s.freeDraws := rfl
@[simp] theorem State.setBit_pending (xs : List Bit) : (s.setBit xs).pending = s.pending := rfl

/-! ### `setPix` -/

@[simp] theorem State.setPix_n (xs : List Byte) : (s.setPix xs).n = s.n := rfl
@[simp] theorem State.setPix_status (xs : List Byte) : (s.setPix xs).status = s.status := rfl
@[simp] theorem State.setPix_txt (xs : List Byte) : (s.setPix xs).txt = s.txt := rfl
@[simp] theorem State.setPix_chr (xs : List Byte) : (s.setPix xs).chr = s.chr := rfl
@[simp] theorem State.setPix_bit (xs : List Byte) : (s.setPix xs).bit = s.bit := rfl
@[simp] theorem State.setPix_pix (xs : List Byte) : (s.setPix xs).pix = xs := rfl
@[simp] theorem State.setPix_hidden (xs : List Byte) : (s.setPix xs).hidden = s.hidden := rfl
@[simp] theorem State.setPix_freeDraws (xs : List Byte) : (s.setPix xs).freeDraws = s.freeDraws := rfl
@[simp] theorem State.setPix_pending (xs : List Byte) : (s.setPix xs).pending = s.pending := rfl

/-! ### `setHidden` -/

@[simp] theorem State.setHidden_n (h : Hidden) : (s.setHidden h).n = s.n := rfl
@[simp] theorem State.setHidden_status (h : Hidden) : (s.setHidden h).status = s.status := rfl
@[simp] theorem State.setHidden_txt (h : Hidden) : (s.setHidden h).txt = s.txt := rfl
@[simp] theorem State.setHidden_chr (h : Hidden) : (s.setHidden h).chr = s.chr := rfl
@[simp] theorem State.setHidden_bit (h : Hidden) : (s.setHidden h).bit = s.bit := rfl
@[simp] theorem State.setHidden_pix (h : Hidden) : (s.setHidden h).pix = s.pix := rfl
@[simp] theorem State.setHidden_hidden (h : Hidden) : (s.setHidden h).hidden = h := rfl
@[simp] theorem State.setHidden_freeDraws (h : Hidden) : (s.setHidden h).freeDraws = s.freeDraws := rfl
@[simp] theorem State.setHidden_pending (h : Hidden) : (s.setHidden h).pending = s.pending := rfl

/-! ### `setPending` -/

@[simp] theorem State.setPending_n (q : List HostAction) : (s.setPending q).n = s.n := rfl
@[simp] theorem State.setPending_status (q : List HostAction) : (s.setPending q).status = s.status := rfl
@[simp] theorem State.setPending_txt (q : List HostAction) : (s.setPending q).txt = s.txt := rfl
@[simp] theorem State.setPending_chr (q : List HostAction) : (s.setPending q).chr = s.chr := rfl
@[simp] theorem State.setPending_bit (q : List HostAction) : (s.setPending q).bit = s.bit := rfl
@[simp] theorem State.setPending_pix (q : List HostAction) : (s.setPending q).pix = s.pix := rfl
@[simp] theorem State.setPending_hidden (q : List HostAction) : (s.setPending q).hidden = s.hidden := rfl
@[simp] theorem State.setPending_freeDraws (q : List HostAction) : (s.setPending q).freeDraws = s.freeDraws := rfl
@[simp] theorem State.setPending_pending (q : List HostAction) : (s.setPending q).pending = q := rfl

/-! ### `raise` -/

@[simp] theorem State.raise_n (e : ErrCode) : (s.raise e).n = s.n := rfl
@[simp] theorem State.raise_status (e : ErrCode) : (s.raise e).status = statusWord e false := rfl
@[simp] theorem State.raise_txt (e : ErrCode) : (s.raise e).txt = s.txt := rfl
@[simp] theorem State.raise_chr (e : ErrCode) : (s.raise e).chr = s.chr := rfl
@[simp] theorem State.raise_bit (e : ErrCode) : (s.raise e).bit = s.bit := rfl
@[simp] theorem State.raise_pix (e : ErrCode) : (s.raise e).pix = s.pix := rfl
@[simp] theorem State.raise_hidden (e : ErrCode) : (s.raise e).hidden = s.hidden := rfl
@[simp] theorem State.raise_freeDraws (e : ErrCode) : (s.raise e).freeDraws = s.freeDraws := rfl
@[simp] theorem State.raise_pending (e : ErrCode) : (s.raise e).pending = s.pending := rfl

/-! ### `complete` -/

@[simp] theorem State.complete_n (f : Bool) : (s.complete f).n = s.n := rfl
@[simp] theorem State.complete_status (f : Bool) : (s.complete f).status = statusWord .ok f := rfl
@[simp] theorem State.complete_txt (f : Bool) : (s.complete f).txt = s.txt := rfl
@[simp] theorem State.complete_chr (f : Bool) : (s.complete f).chr = s.chr := rfl
@[simp] theorem State.complete_bit (f : Bool) : (s.complete f).bit = s.bit := rfl
@[simp] theorem State.complete_pix (f : Bool) : (s.complete f).pix = s.pix := rfl
@[simp] theorem State.complete_hidden (f : Bool) : (s.complete f).hidden = Config.discardedHidden s.freeDraws := rfl
@[simp] theorem State.complete_freeDraws (f : Bool) : (s.complete f).freeDraws = s.freeDraws + 1 := rfl
@[simp] theorem State.complete_pending (f : Bool) : (s.complete f).pending = s.pending := rfl

/-! ### Contents and lengths of the spaces -/

@[simp] theorem State.buf_txt : s.buf .txt = .txt s.txt := rfl
@[simp] theorem State.buf_chr : s.buf .chr = .chr s.chr := rfl
@[simp] theorem State.buf_bit : s.buf .bit = .bit s.bit := rfl
@[simp] theorem State.buf_pix : s.buf .pix = .pix s.pix := rfl
@[simp] theorem State.len_txt : s.len .txt = s.txt.length := rfl
@[simp] theorem State.len_chr : s.len .chr = s.chr.length := rfl
@[simp] theorem State.len_bit : s.len .bit = s.bit.length := rfl
@[simp] theorem State.len_pix : s.len .pix = s.pix.length := rfl

/-- `SetBuf` writes its own space. -/
@[simp] theorem State.buf_setBuf_self (q : SpaceSeq) : (s.setBuf q).buf q.space = q := by
  cases q <;> rfl

/-- `SetBuf` leaves the other spaces: the four are disjoint (R59). -/
theorem State.buf_setBuf_of_ne (q : SpaceSeq) (sp : Space) (h : sp ≠ q.space) :
    (s.setBuf q).buf sp = s.buf sp := by
  cases q <;> cases sp <;> first | rfl | exact absurd rfl h

@[simp] theorem State.setBuf_n (q : SpaceSeq) : (s.setBuf q).n = s.n := by cases q <;> rfl
@[simp] theorem State.setBuf_status (q : SpaceSeq) : (s.setBuf q).status = s.status := by cases q <;> rfl
@[simp] theorem State.setBuf_hidden (q : SpaceSeq) : (s.setBuf q).hidden = s.hidden := by cases q <;> rfl
@[simp] theorem State.setBuf_freeDraws (q : SpaceSeq) : (s.setBuf q).freeDraws = s.freeDraws := by
  cases q <;> rfl
@[simp] theorem State.setBuf_pending (q : SpaceSeq) : (s.setBuf q).pending = s.pending := by cases q <;> rfl

/-- A read after a load gives the element loaded. -/
theorem State.memRead_setTxt (xs : List Byte) (i : Nat) :
    (s.setTxt xs).memRead .txt i = xs[i]?.map Elem.code := rfl

/-- `MemRead` finds an element exactly at the valid indices `0` to `S_LEN - 1` (R50, R58). -/
theorem State.memRead_isSome (sp : Space) (i : Nat) :
    (s.memRead sp i).isSome = true ↔ i < s.len sp := by
  cases sp <;> simp [State.memRead, State.len]

/-- Truncation to `k` leaves `k` elements, where there were as many. -/
theorem State.len_truncate (sp : Space) (k : Nat) (h : k ≤ s.len sp) : (s.truncate sp k).len sp = k := by
  cases sp <;> simp_all [State.truncate, State.len]

@[simp] theorem State.truncate_n (sp : Space) (k : Nat) : (s.truncate sp k).n = s.n := by cases sp <;> rfl
@[simp] theorem State.truncate_status (sp : Space) (k : Nat) : (s.truncate sp k).status = s.status := by
  cases sp <;> rfl
@[simp] theorem State.truncate_pending (sp : Space) (k : Nat) :
    (s.truncate sp k).pending = s.pending := by cases sp <;> rfl

/-- Truncation of one space leaves the others. -/
theorem State.buf_truncate_of_ne (sp sp' : Space) (k : Nat) (h : sp' ≠ sp) :
    (s.truncate sp k).buf sp' = s.buf sp' := by
  cases sp <;> cases sp' <;> first | rfl | exact absurd rfl h

end Sys2Proof.Machine
end

