-- ==== Sys2Proof/Laws/Ops.lean ====
section
/-! SUPPORT. What each shared operation can do, said once. -/

namespace Sys2Proof.Machine

/-- `N` gives the cipher its parameter exactly when it is not negative. -/
theorem State.cipherParam_eq_some (s : State) (n : Nat) : s.cipherParam = some n ↔ s.n = n := by
  unfold State.cipherParam
  split <;> simp <;> omega

theorem State.cipherParam_eq_none (s : State) : s.cipherParam = none ↔ s.n < 0 := by
  unfold State.cipherParam
  split <;> simp <;> omega

theorem State.cipherParam_of_neg (s : State) (h : s.n < 0) : s.cipherParam = none :=
  s.cipherParam_eq_none.mpr h

theorem State.cipherParam_of_eq (s : State) (n : Nat) (h : s.n = n) : s.cipherParam = some n :=
  (s.cipherParam_eq_some n).mpr h

@[simp] theorem statusWord_ok_false : statusWord .ok false = 0x00 := by decide
@[simp] theorem statusWord_ok_true : statusWord .ok true = 0x08 := by decide
@[simp] theorem statusWord_capacity : statusWord .capacity false = 0x01 := by decide
@[simp] theorem statusWord_param : statusWord .param false = 0x02 := by decide
@[simp] theorem statusWord_align : statusWord .align false = 0x03 := by decide
@[simp] theorem statusWord_illegal : statusWord .illegal false = 0x04 := by decide

/-- A command that completed leaves `ERR = OK` and the `SNF` it was given. -/
theorem State.complete_errField (s : State) (f : Bool) : (s.complete f).errField = 0 := by
  change BitVec.extractLsb' 0 3 (statusWord .ok f) = 0
  cases f <;> decide

theorem State.complete_snfField (s : State) (f : Bool) : (s.complete f).snfField = f := by
  change (statusWord .ok f).getLsbD 3 = f
  cases f <;> decide

/-- A command that raised leaves the error's code and `SNF = 0` (R170). -/
theorem State.raise_errField (s : State) (e : ErrCode) : (s.raise e).errField = e.code := by
  change BitVec.extractLsb' 0 3 (statusWord e false) = e.code
  cases e <;> decide

theorem State.raise_snfField (s : State) (e : ErrCode) : (s.raise e).snfField = false := by
  change (statusWord e false).getLsbD 3 = false
  cases e <;> decide

/-- A command that completed ended OK. -/
@[simp] theorem State.complete_endedOk (s : State) (f : Bool) : (s.complete f).endedOk = true := by
  change (BitVec.extractLsb' 0 3 (statusWord .ok f) == ErrCode.ok.code) = true
  cases f <;> decide

/-- A command that raised did not end OK. -/
theorem State.raise_endedOk (s : State) (e : ErrCode) (h : e ≠ .ok) : (s.raise e).endedOk = false := by
  cases e <;> first | rfl | exact absurd rfl h

/-- A stage runs after a stage that completed. -/
@[simp] theorem thenStage_complete (f : State → State) (s : State) (snf : Bool) :
    thenStage f (s.complete snf) = f (s.complete snf) := by
  simp [thenStage]

/-- No stage runs after one that raised. -/
@[simp] theorem thenStage_raise (f : State → State) (s : State) (e : ErrCode) (h : e ≠ .ok) :
    thenStage f (s.raise e) = s.raise e := by
  simp [thenStage, s.raise_endedOk e h]

/-- Every command answers a next state, the one `commandIn` gives in the machine's build. -/
theorem exec_eq (i : Instr) (s : State) : exec i s = .next (commandIn Config.build i s) := by
  cases i <;> rfl

/-- CENC does one of two things. -/
theorem cencIn_cases (b : Build) (s : State) :
    (s.n < 0 ∧ cencIn b s = s.raise .param) ∨
    (∃ n : Nat, s.n = n ∧ cencIn b s = (s.setChr (cencLoop b n s.txt s.hidden).out).complete false) := by
  unfold cencIn
  cases h : s.cipherParam with
  | none => exact .inl ⟨s.cipherParam_eq_none.mp h, rfl⟩
  | some n => exact .inr ⟨n, (s.cipherParam_eq_some n).mp h, rfl⟩

/-- CDEC does one of two things. -/
theorem cdecIn_cases (b : Build) (s : State) :
    (s.n < 0 ∧ cdecIn b s = s.raise .param) ∨
    (∃ n : Nat, s.n = n ∧ cdecIn b s =
      (s.setTxt (stripSpecial b (cdecLoop b n s.chr s.hidden.startCipher).1.w)).complete
        (!(cdecLoop b n s.chr s.hidden.startCipher).2)) := by
  unfold cdecIn
  cases h : s.cipherParam with
  | none => exact .inl ⟨s.cipherParam_eq_none.mp h, rfl⟩
  | some n => exact .inr ⟨n, (s.cipherParam_eq_some n).mp h, rfl⟩

/-- TOBYTES does one of two things. -/
theorem tobytes_cases (s : State) :
    (s.bit.length % 8 ≠ 0 ∧ tobytes s = s.raise .align) ∨
    (s.bit.length % 8 = 0 ∧ tobytes s = (s.setChr (deserialize s.bit)).complete false) := by
  unfold tobytes
  split
  · exact .inl ⟨‹_›, rfl⟩
  · exact .inr ⟨by omega, rfl⟩

/-- EMBED does one of two things. -/
theorem embed_cases (s : State) :
    (s.pix.length < s.bit.length ∧ embed s = s.raise .capacity) ∨
    (s.bit.length ≤ s.pix.length ∧ embed s = (s.setPix (embedLsbs s.pix s.bit)).complete false) := by
  unfold embed
  split
  · exact .inl ⟨‹_›, rfl⟩
  · exact .inr ⟨by omega, rfl⟩

/-- A word that decodes runs its command. -/
theorem issue_of_decode {w : Byte} {i : Instr} (h : decode w = .ok i) (s : State) : issue w s = exec i s := by
  simp [issue, h]

/-- A word that does not decode is `ILLEGAL` and changes nothing else (R73). -/
theorem issue_of_illegal {w : Byte} {e : DecodeError} (h : decode w = .error e) (s : State) :
    issue w s = .next (s.raise .illegal) := by
  simp [issue, h]

/-- The write of a command word to register 0 is the write of that word to `CMD` (R30). -/
theorem writeReg_cmd (w : Byte) (s : State) : writeReg 0 w.toNat s = issue w s := by
  have : (w.toNat : Int) < 256 := by have := w.isLt; omega
  simp [writeReg, regOfNumber, this]

/-- What a write by register number can lead to. -/
theorem writeReg_cases {num : Nat} {v : Int} {s t : State} (h : writeReg num v s = .next t) :
    (num = 0 ∧ ∃ w : Byte, v = w.toNat ∧ issue w s = .next t) ∨
    (num = 2 ∧ t = s.setN v) ∨
    (∃ (sp : Space) (k : Nat), regOfNumber num = some (.len sp) ∧ v = k ∧ k ≤ s.len sp ∧ t = s.truncate sp k) := by
  unfold writeReg at h
  split at h
  · rename_i hr
    split at h
    · rename_i hv
      have hn : num = 0 := by
        unfold regOfNumber at hr; split at hr <;> simp_all
      exact .inl ⟨hn, BitVec.ofInt 8 v, by rw [BitVec.toNat_ofInt]; omega, h⟩
    · cases h
  · cases h
  · rename_i hr
    have hn : num = 2 := by
      unfold regOfNumber at hr; split at hr <;> simp_all
    cases h; exact .inr (.inl ⟨hn, rfl⟩)
  · rename_i sp hr
    split at h
    · unfold writeLen at h
      split at h
      · cases h; exact .inr (.inr ⟨sp, v.toNat, hr, by omega, by assumption, rfl⟩)
      · cases h
    · cases h
  · cases h

/-- What one action of the host can lead to. -/
theorem hostAct_cases {a : HostAction} {s t : State} (h : hostAct a s = .next t) :
    (∃ w, a = .writeCmd w ∧ issue w s = .next t) ∨
    (∃ v, a = .writeN v ∧ t = s.setN v) ∨
    (∃ sp k, a = .writeLen sp k ∧ k ≤ s.len sp ∧ t = s.truncate sp k) ∨
    (∃ q, a = .load q ∧ t = s.setBuf q) ∨
    (∃ num v, a = .writeReg num v ∧ writeReg num v s = .next t) ∨
    (∃ num v, a = .readReg num ∧ readReg num s = .ok v ∧ t = s) ∨
    (∃ sp, a = .readBuf sp ∧ t = s) ∨
    (∃ sp i v, a = .readElem sp i ∧ readElem sp i s = .ok v ∧ t = s) ∨
    (a = .reset ∧ t = resetBlock s) := by
  cases a with
  | writeCmd w => exact .inl ⟨w, rfl, h⟩
  | writeN v => simp_all [hostAct]
  | writeLen sp k =>
    simp only [hostAct, writeLen] at h
    split at h <;> simp_all
  | load q => simp_all [hostAct]
  | writeReg num v => simp_all [hostAct]
  | readReg num =>
    simp only [hostAct, afterRead] at h
    split at h <;> simp_all
  | readBuf sp => simp_all [hostAct, afterRead]
  | readElem sp i =>
    simp only [hostAct, afterRead] at h
    split at h <;> simp_all
  | writeStatus v => simp [hostAct] at h
  | reset => simp_all [hostAct]

/-- A step takes the host's next action, or the block is idle. -/
theorem step_of_pending {s : State} {a : HostAction} {rest : List HostAction} (h : s.pending = a :: rest) :
    step s = hostAct a (s.setPending rest) := by
  simp [step, takeNext, h]

theorem step_of_idle {s : State} (h : s.pending = []) : step s = .next s := by
  simp [step, takeNext, h]

/-- What a step that answers a next state has done. -/
theorem step_cases {s t : State} (h : step s = .next t) :
    (s.pending = [] ∧ t = s) ∨
    ∃ a rest, s.pending = a :: rest ∧ hostAct a (s.setPending rest) = .next t := by
  cases hp : s.pending with
  | nil => simp_all [step_of_idle hp]
  | cons a rest => exact .inr ⟨a, rest, rfl, by rw [← step_of_pending hp]; exact h⟩

end Sys2Proof.Machine
end

