-- ==== Sys2Proof/Laws/BitPacker.lean ====
section
/-! SUPPORT. What the list functions of unit BP compute (spec/41_bitpacker.md). -/

namespace Sys2Proof.Machine

@[simp] theorem charBits_length (c : Byte) : (charBits c).length = 8 := rfl

/-- Bit `j` of the expansion is bit `7 - j` of the character (20 R52). -/
theorem charBits_getElem? (c : Byte) (j : Nat) (h : j < 8) : (charBits c)[j]? = some (bitOf c (7 - j)) := by
  simp [charBits, h]

/-- Expanding a character and reassembling it gives the character. -/
theorem groupByte_charBits (c : Byte) : groupByte (charBits c) = c := by revert c; decide

/-- Reassembling eight bits and expanding the byte gives the bits. -/
theorem charBits_groupByte (b7 b6 b5 b4 b3 b2 b1 b0 : Bit) :
    charBits (groupByte [b7, b6, b5, b4, b3, b2, b1, b0]) = [b7, b6, b5, b4, b3, b2, b1, b0] := by
  revert b7 b6 b5 b4 b3 b2 b1 b0; decide

theorem serialize_cons (c : Byte) (cs : List Byte) : serialize (c :: cs) = charBits c ++ serialize cs := rfl

theorem serialize_length (cs : List Byte) : (serialize cs).length = 8 * cs.length := by
  induction cs with
  | nil => rfl
  | cons c cs ih => rw [serialize_cons, List.length_append, ih, charBits_length, List.length_cons]; omega

theorem deserialize_charBits_append (c : Byte) (rest : List Bit) :
    deserialize (charBits c ++ rest) = c :: deserialize rest := by
  conv_rhs => rw [← groupByte_charBits c]
  rfl

/-- TOBYTES's function undoes TOBITS's. -/
theorem deserialize_serialize (cs : List Byte) : deserialize (serialize cs) = cs := by
  induction cs with
  | nil => rfl
  | cons c cs ih => rw [serialize_cons, deserialize_charBits_append, ih]

/-- A bit sequence of whole groups is empty or has a first group of eight. -/
theorem eq_nil_or_first_group (bits : List Bit) (h : bits.length % 8 = 0) :
    bits = [] ∨ ∃ b7 b6 b5 b4 b3 b2 b1 b0 rest,
      bits = b7 :: b6 :: b5 :: b4 :: b3 :: b2 :: b1 :: b0 :: rest ∧ rest.length % 8 = 0 := by
  match bits, h with
  | [], _ => exact .inl rfl
  | b7 :: b6 :: b5 :: b4 :: b3 :: b2 :: b1 :: b0 :: rest, h =>
    exact .inr ⟨b7, b6, b5, b4, b3, b2, b1, b0, rest, rfl, by simp at h; omega⟩
  | [_], h | [_, _], h | [_, _, _], h | [_, _, _, _], h | [_, _, _, _, _], h | [_, _, _, _, _, _], h
  | [_, _, _, _, _, _, _], h => simp at h

end Sys2Proof.Machine
end

