-- ==== Sys2Proof/Laws/CycleCipher.lean ====
section
/-! SUPPORT. What the loops of unit CC compute, in the terms of `Safety.lean` (spec/40_cyclecipher.md). -/

namespace Sys2Proof.Machine

/-! ## The cycle position -/

/-- An advance stays within the period (R90). -/
theorem advance_le (n cp : Nat) : advance n cp ≤ n := by
  have := Nat.mod_lt (cp + 1) (show n + 1 > 0 by omega)
  unfold advance; omega

theorem advances_succ (n r cp : Nat) : advances n (r + 1) cp = advance n (advances n r cp) := by
  induction r generalizing cp with
  | zero => rfl
  | succ r ih => rw [advances, ih]; rfl

/-- `CP` after `r` advances from an output index `k` is the cycle position of index `k + r` (R98). -/
theorem advances_mod (n r k : Nat) : advances n r (k % (n + 1)) = (k + r) % (n + 1) := by
  induction r generalizing k with
  | zero => rfl
  | succ r ih =>
    rw [advances, advance, show (k % (n + 1) + 1) % (n + 1) = (k + 1) % (n + 1) by simp, ih]
    congr 1; omega

/-! ## CENC -/

variable (b : Build) (n : Nat)

/-- The inner loop appends its fillers and advances `CP` once for each. -/
theorem cencFill_spec (r : Nat) (h : Hidden) :
    (cencFill b n r h).out = h.out ++ fillersFrom b n r h.cp ∧ (cencFill b n r h).cp = advances n r h.cp := by
  induction r generalizing h with
  | zero => simp [cencFill, fillersFrom, advances]
  | succ r ih => simp [cencFill, ih, fillersFrom, advances, Hidden.emit, Hidden.advanceCp]

/-- The loop body for one character appends the shifted character and its fillers. -/
theorem cencChar_spec (h : Hidden) (c : Byte) :
    let r := if b.isAlpha c then h.cp else 0
    (cencChar b n h c).out = h.out ++ shiftUp c h.cp :: fillersFrom b n r h.cp ∧
    (cencChar b n h c).cp = advances n (r + 1) h.cp := by
  have hr : ∀ (r : Nat) (g : Hidden), (cencFill b n r g).advanceCp n = { cencFill b n r g with
      cp := advances n (r + 1) g.cp } := fun r g => by
    rw [advances_succ, ← (cencFill_spec b n r g).2]; rfl
  by_cases hc : b.isAlpha c = true
  · simp [cencChar, hc, Hidden.nextIdx, hr, (cencFill_spec b n _ _).1, Hidden.emit]
  · simp [cencChar, hc, Hidden.nextIdx, Hidden.emit, Hidden.advanceCp, fillersFrom, advances]

/-- CENC builds what `encodeFrom` reads off forward. -/
theorem cencLoop_out (txt : List Byte) (h : Hidden) : (cencLoop b n txt h).out = encodeFrom b n txt 0 := by
  suffices ∀ (l : List Byte) (g : Hidden),
      (cencSentinel b n (l.foldl (cencChar b n) g)).out = g.out ++ encodeFrom b n l g.cp by
    simpa [cencLoop, Hidden.startCipher] using this txt h.startCipher
  intro l
  induction l with
  | nil => intro g; simp [cencSentinel, Hidden.emit, encodeFrom]
  | cons c cs ih => intro g; simp [List.foldl_cons, ih, cencChar_spec b n g c, encodeFrom]

/-! ## CDEC -/

/-- One byte appends its decoded code where that is printable. -/
theorem cdecByte_w (h : Hidden) (x : Byte) :
    (cdecByte b n h x).w = h.w ++ [shiftDown x h.cp].filter b.isPrint := by
  unfold cdecByte
  cases hp : b.isPrint (shiftDown x h.cp) <;> simp [hp, Hidden.advanceCp, Hidden.nextIdx]

/-- One byte advances `CP` once, printable or not (R103). -/
theorem cdecByte_cp (h : Hidden) (x : Byte) : (cdecByte b n h x).cp = advance n h.cp := by
  simp only [cdecByte]; split <;> rfl

theorem cdecByte_idx (h : Hidden) (x : Byte) : (cdecByte b n h x).idx = h.idx + 1 := by
  simp only [cdecByte]; split <;> rfl

/-- The test of R100 line 9 is that `W` ends in two `AT`. -/
theorem endsInSentinel_iff (w : List Byte) : endsInSentinel b w = true ↔ EndsInAtAt b w := by
  unfold endsInSentinel EndsInAtAt
  constructor
  · intro h
    simp only [Bool.and_eq_true, decide_eq_true_eq, beq_iff_eq] at h
    obtain ⟨⟨h2, ha⟩, hb⟩ := h
    rw [List.suffix_iff_eq_drop]
    apply List.ext_getElem?
    intro i
    rw [List.getElem?_drop]
    match i with
    | 0 => simpa using ha.symm
    | 1 => simpa [show w.length - 2 + 1 = w.length - 1 by omega] using hb.symm
    | i + 2 => rw [List.getElem?_eq_none (by simp), List.getElem?_eq_none (by simp; omega)]
  · rintro ⟨u, rfl⟩; simp

/-- The two ways of saying that the characters of `SPECIAL` are removed agree. -/
theorem stripSpecial_eq (w : List Byte) : stripSpecial b w = withoutSpecial b w := by
  apply List.filter_congr
  intro c _
  rw [Bool.eq_iff_iff]
  simp only [isSpecial, Bool.not_eq_true', List.contains_eq_mem, decide_eq_false_iff_not, Vector.mem_toList_iff,
    decide_eq_true_eq, Vector.mem_iff_getElem, not_exists]
  exact ⟨fun h k e => h k k.isLt e, fun h i hi e => h ⟨i, hi⟩ e⟩

end Sys2Proof.Machine
end

