-- ==== Sys2Proof/Laws/PerInstr.lean ====
section
/-! SUPPORT. The families of lemmas about every command as syntax, one lemma for each constructor. -/

namespace Sys2Proof.Laws

/-- The family's claim of one command: its word has the reserved field 0000 and its own opcode below it
(spec/30_encoding.md R70), and its opcode is 1 to 8 (R71). -/
def WordFields.Statement (i : Instr) : Prop :=
  rsvField (encode i) = 0 ∧ opcField (encode i) = i.opc ∧ 1 ≤ i.opc.toNat ∧ i.opc.toNat ≤ 8

theorem WordFields.cenc : WordFields.Statement .cenc := by unfold WordFields.Statement; decide
theorem WordFields.cdec : WordFields.Statement .cdec := by unfold WordFields.Statement; decide
theorem WordFields.tobits : WordFields.Statement .tobits := by unfold WordFields.Statement; decide
theorem WordFields.tobytes : WordFields.Statement .tobytes := by unfold WordFields.Statement; decide
theorem WordFields.embed : WordFields.Statement .embed := by unfold WordFields.Statement; decide
theorem WordFields.extract : WordFields.Statement .extract := by unfold WordFields.Statement; decide
theorem WordFields.encb : WordFields.Statement .encb := by unfold WordFields.Statement; decide
theorem WordFields.decb : WordFields.Statement .decb := by unfold WordFields.Statement; decide

end Sys2Proof.Laws
end

