-- ==== Sys2Proof/Laws/PixelChannel.lean ====
section
/-! SUPPORT. What the element functions of unit PX compute (spec/42_pixelchannel.md). -/

namespace Sys2Proof.Machine

theorem lsb_eq_bitOf (p : Byte) : lsb p = bitOf p 0 := by revert p; decide

/-- Bit replace keeps bits 7 to 1 (R136). -/
theorem replaceLsb_upper (p : Byte) (b : Bit) : (replaceLsb p b).extractLsb' 1 7 = p.extractLsb' 1 7 := by
  revert p b; decide

/-- Bit replace sets bit 0 (R136). -/
theorem bitOf_replaceLsb (p : Byte) (b : Bit) : bitOf (replaceLsb p b) 0 = b := by revert p b; decide

/-- The last replacement counts (20 R57). -/
theorem replaceLsb_replaceLsb (p : Byte) (b c : Bit) : replaceLsb (replaceLsb p c) b = replaceLsb p b := by
  revert p b c; decide

theorem embedLsbs_nil (ps : List Byte) : embedLsbs ps [] = ps := by cases ps <;> rfl

/-- What EMBED leaves at every index of a carrier that is long enough. -/
theorem embedLsbs_getElem? (ps : List Byte) (bs : List Bit) (i : Nat) (h : bs.length ≤ ps.length) :
    (embedLsbs ps bs)[i]? =
      match bs[i]? with
      | some b => ps[i]?.map (replaceLsb · b)
      | none => ps[i]? := by
  induction bs generalizing ps i with
  | nil => simp [embedLsbs_nil]
  | cons b bs ih =>
    cases ps with
    | nil => simp at h
    | cons p ps =>
      cases i with
      | zero => simp [embedLsbs]
      | succ i => simpa [embedLsbs] using ih ps i (by simpa using h)

/-- EMBED leaves the carrier's length. -/
theorem embedLsbs_length (ps : List Byte) (bs : List Bit) (h : bs.length ≤ ps.length) :
    (embedLsbs ps bs).length = ps.length := by
  induction bs generalizing ps with
  | nil => rw [embedLsbs_nil]
  | cons b bs ih =>
    cases ps with
    | nil => simp at h
    | cons p ps => simpa [embedLsbs] using ih ps (by simpa using h)

end Sys2Proof.Machine
end

