-- ==== Sys2Proof/Tests/Slice0.lean ====
section
/-! SUPPORT. The model's own tests. Expected values are the spec's (spec/30_encoding.md R71 for the words,
spec/95_test_vectors.md for the commands, each vector named), and every statement of
`Certificates/Slice0/Obligations.lean` that has hypotheses has a state here that meets them, at the edges of its
clauses. -/

namespace Sys2Proof.Tests

open Sys2Proof Sys2Proof.Machine

/-- A small state: the reset state with an `N` and contents of the four spaces. -/
def sample (n : Int) (txt chr : List Byte) (bit : List Bit) (pix : List Byte) : State :=
  { State.reset with n := n, txt := txt, chr := chr, bit := bit, pix := pix }

/-- The reset state with the host's actions to come. -/
def withActions (q : List HostAction) : State := { State.reset with pending := q }

/-! ## Words, written out from R70 and R71 -/

theorem test_decode_cenc : (decode 0b0000_0001#8).toOption = some .cenc := by decide
theorem test_decode_cdec : (decode 0b0000_0010#8).toOption = some .cdec := by decide
theorem test_decode_tobits : (decode 0b0000_0011#8).toOption = some .tobits := by decide
theorem test_decode_tobytes : (decode 0b0000_0100#8).toOption = some .tobytes := by decide
theorem test_decode_embed : (decode 0b0000_0101#8).toOption = some .embed := by decide
theorem test_decode_extract : (decode 0b0000_0110#8).toOption = some .extract := by decide
theorem test_decode_encb : (decode 0b0000_0111#8).toOption = some .encb := by decide
theorem test_decode_decb : (decode 0b0000_1000#8).toOption = some .decb := by decide

/-- V66 to V69: 0x00, 0x09, 0x11 and 0xFF are illegal, and so are the edges 0x0F and 0x10 of R73's ranges. -/
theorem test_decode_illegal :
    ∀ w ∈ ([0x00, 0x09, 0x0F, 0x10, 0x11, 0xFF] : List Byte), (decode w).toOption = none := by decide

/-- R73 splits the illegal words by their reserved field. -/
theorem test_decode_rejects_by_name :
    decode 0x0F = .error .opcodeUnassigned ∧ decode 0x10 = .error .reservedBitsSet := ⟨rfl, rfl⟩

/-- A table word that does not fit the 8-bit format is no command. -/
theorem test_decodeTableWord :
    decodeTableWord 8 0x08 = some .decb ∧ decodeTableWord 16 0x0108 = none := by decide

/-- No two rows of the opcode table share a pattern. -/
theorem test_opcodeTable_patterns : (opcodeTable.map OpcodeRow.pattern).Nodup := by decide

/-! ## Well-formedness -/

/-- A command has no operand, so there is no ill-formed one (R72). -/
theorem test_wf_instr : ∀ i ∈ opcodeTable.map OpcodeRow.instr, i.wf = true := by decide

/-- A table with a repeated code is no `SPECIAL` (R91). -/
theorem test_wf_build_repeated :
    ({ Build.specVectors with special := Vector.replicate 23 0x21 } : Build).wf = false := by decide

/-- A build in which `AT` is not printable is refused (R94). -/
theorem test_wf_build_at_unprintable :
    ({ Build.specVectors with atCode := 0x07 } : Build).wf = false := by decide

theorem test_wf_build_specVectors : Build.specVectors.wf = true := by decide

/-- A string loads `TXT` or `CHR` only (R77). -/
theorem test_wf_line_string_space :
    (ScriptLine.loadString .pix ['a']).wf = false ∧ (ScriptLine.loadString .bit []).wf = false ∧
    (ScriptLine.loadString .chr ['a']).wf = true := by decide

/-- A character without an ASCII code is no character of a script string (R77). -/
theorem test_wf_line_string_ascii : (ScriptLine.loadString .txt ['\u00e9']).wf = false := by decide

/-! ## Vectors of spec/95_test_vectors.md -/

/-- V17: "Hello", `N = 3`. -/
theorem test_cenc_V17 :
    (cencIn Build.specVectors (sample 3 [0x48, 0x65, 0x6C, 0x6C, 0x6F] [] [] [])).chr =
      [0x48, 0x66, 0x25, 0x6F, 0x21, 0x23, 0x25, 0x6F, 0x21, 0x23, 0x25, 0x72, 0x21, 0x23, 0x25, 0x43, 0x40] := by
  decide

/-- V19: codes wrap modulo 256. -/
theorem test_cenc_V19 :
    (cencIn Build.specVectors (sample 2 [0x7E, 0xFF, 0xFF] [] [] [])).chr = [0x7E, 0x00, 0x01, 0x40, 0x41] := by
  decide

/-- V36: a dropped non-printable does not separate two `@`; the loop stops at the third byte. -/
theorem test_cdec_V36 :
    let t := cdecIn Build.specVectors (sample 0 [0x99] [0x40, 0x07, 0x40, 0x41] [] [])
    t.txt = [] ∧ t.status = 0x00 := by decide

/-- V32: a wrong `n` gives wrong text with `SNF`. -/
theorem test_cdec_V32 :
    let t := cdecIn Build.specVectors (sample 2 [] [0x48, 0x6A, 0x25, 0x43, 0x40] [] [])
    t.txt = [0x48, 0x69, 0x43] ∧ t.status = 0x08 := by decide

/-- V40. -/
theorem test_tobits_V40 :
    (tobits (sample 0 [] [0x48, 0x6A] [1] [])).bit = [0, 1, 0, 0, 1, 0, 0, 0, 0, 1, 1, 0, 1, 0, 1, 0] := by decide

/-- V43: bit 0 is the last of its group, bit 7 the first. -/
theorem test_tobits_V43 :
    (tobits (sample 0 [] [0x01, 0x80] [] [])).bit = [0, 0, 0, 0, 0, 0, 0, 1, 1, 0, 0, 0, 0, 0, 0, 0] := by decide

/-- V45. -/
theorem test_tobytes_V45 :
    (tobytes (sample 0 [] [] [0, 1, 0, 0, 0, 0, 1, 1, 0, 1, 0, 0, 0, 0, 0, 0] [])).chr = [0x43, 0x40] := by decide

/-- V46: 12 bits; the complete first group is not delivered. -/
theorem test_tobytes_V46 :
    let t := tobytes (sample 0 [] [0x99] [0, 0, 0, 0, 0, 0, 0, 0, 0, 0, 0, 0] [])
    t.chr = [0x99] ∧ t.status = 0x03 := by decide

/-- V50. -/
theorem test_embed_V50 :
    let t := embed (sample 0 [] [] [0, 1, 1, 0] [0xFF, 0x00, 0x80, 0x7F, 0x10])
    t.pix = [0xFE, 0x01, 0x81, 0x7E, 0x10] ∧ t.status = 0x00 := by decide

/-- V51: a payload of 4 bits and a carrier of 3. -/
theorem test_embed_V51 :
    let t := embed (sample 0 [] [] [0, 0, 0, 0] [0x01, 0x02, 0x03])
    t.pix = [0x01, 0x02, 0x03] ∧ t.status = 0x01 := by decide

/-- V55. -/
theorem test_extract_V55 :
    (extract (sample 0 [] [] [] [0xFE, 0x01, 0x81, 0x7E, 0x10])).bit = [0, 1, 1, 0, 0] := by decide

/-- V57: an image that never held a payload. -/
theorem test_extract_V57 :
    (extract (sample 0 [] [] [] [0x0B, 0x30, 0x55, 0x7A, 0x9F, 0xC4, 0xE9, 0x0E])).bit =
      [1, 0, 1, 0, 1, 0, 1, 0] := by decide

/-- V60. -/
theorem test_encb_V60 :
    let t := encbIn Build.specVectors (sample 0 [0x61, 0x62] [] [] [])
    t.chr = [0x61, 0x62, 0x40, 0x40] ∧
    t.bit = [0, 1, 1, 0, 0, 0, 0, 1, 0, 1, 1, 0, 0, 0, 1, 0, 0, 1, 0, 0, 0, 0, 0, 0, 0, 1, 0, 0, 0, 0, 0, 0] := by
  decide

/-- V64. -/
theorem test_encb_V64 :
    let t := encbIn Build.specVectors (sample (-2) [0x61, 0x62] [0x99] [1] [])
    t.chr = [0x99] ∧ t.bit = [1] ∧ t.status = 0x02 := by decide

/-- V62: both conditions hold, and `ALIGN` comes first. -/
theorem test_decb_V62 :
    let t := decbIn Build.specVectors (sample (-1) [] [0x99] [0, 0, 0, 0, 0, 0, 0, 0, 0, 0, 0, 0] [])
    t.chr = [0x99] ∧ t.status = 0x03 := by decide

/-- V63: `PARAM` from stage 2 after stage 1 wrote `CHR`. -/
theorem test_decb_V63 :
    let t := decbIn Build.specVectors (sample (-1) [0x11] [0x99] [0, 1, 0, 0, 0, 0, 0, 0, 0, 1, 0, 0, 0, 0, 0, 0] [])
    t.chr = [0x40, 0x40] ∧ t.txt = [0x11] ∧ t.status = 0x02 := by decide

/-- P1: the carrier after HIDE, its first eight values (0x48 in bits), and the text after REVEAL. -/
theorem test_program_P1 :
    let t := hideIn Build.specVectors
      (sample 3 [0x48, 0x69] [] [] ((List.range 40).map fun i => BitVec.ofNat 8 (0x80 + i)))
    t.pix.take 8 = [0x80, 0x81, 0x82, 0x82, 0x85, 0x84, 0x86, 0x86] ∧
    (revealIn Build.specVectors t).txt = [0x48, 0x69] := by decide

/-- One step with a word placed runs its command: TOBITS on 0xA5 (V41's third group). -/
theorem test_step_runs_placed_word :
    ∃ t, step ((sample 0 [] [0xA5] [] []).withFetchWord 8 0x03) = .next t ∧ t.bit = [1, 0, 1, 0, 0, 1, 0, 1] ∧
      t.status = 0x00 ∧ t.pending = [] := ⟨_, rfl, by decide, by decide, by decide⟩

/-! ## Witnesses: words, steps, reset -/

theorem witness_CommandWordsDecodeAsTheTableSays :
    ∀ w ∈ ([0x00, 0x09, 0x0F, 0x10, 0xFF] : List Byte), w.toNat = 0 ∨ 9 ≤ w.toNat := by decide

theorem witness_IllegalWordChangesOnlyStatus :
    ∀ w ∈ ([0x00, 0x09, 0x11, 0xFF] : List Byte),
      (withActions [.writeCmd w]).pending = .writeCmd w :: [] ∧ (w.toNat = 0 ∨ 9 ≤ w.toNat) := by decide

theorem witness_StepRunsTheDecodedCommand :
    (withActions [.writeCmd 0x08, .reset]).pending = .writeCmd 0x08 :: [.reset] ∧ decode 0x08 = .ok .decb :=
  ⟨rfl, rfl⟩

theorem witness_IdleStepChangesNothing : State.reset.pending = [] := rfl

theorem witness_ResetActionRestoresTheTable : (withActions [.reset, .writeN 1]).pending = .reset :: [.writeN 1] :=
  rfl

/-! ## Witnesses: the status register and errors -/

theorem witness_EveryStepKeepsStatusLegal :
    (withActions [.writeCmd 0x00]).StatusLegal ∧
    ∃ t, step (withActions [.writeCmd 0x00]) = .next t ∧ t.status = 0x04 :=
  ⟨by unfold State.StatusLegal; decide, _, rfl, rfl⟩

theorem witness_StatusIsOverwrittenWholeByCommandsOnly :
    (State.reset.setStatus 0x08).status = statusWord .ok true ∧
    (∃ t, issue 0x10 State.reset = .next t) ∧
    (HostAction.writeN 5).isCommand = false ∧ HostAction.writeN 5 ≠ .reset ∧
    ∃ t, hostAct (.writeN 5) State.reset = .next t :=
  ⟨by decide, ⟨_, rfl⟩, rfl, by decide, _, rfl⟩

theorem witness_ErrorCodesHaveTheirCommands :
    (∃ t, exec .embed (sample 0 [] [] [1] []) = .next t ∧ t.errField = 1) ∧
    (∃ t, exec .cenc (sample (-1) [] [] [] []) = .next t ∧ t.errField = 2) ∧
    (∃ t, exec .tobytes (sample 0 [] [] [1] []) = .next t ∧ t.errField = 3) ∧
    ∀ i, decode 0x00 ≠ .ok i :=
  ⟨⟨_, rfl, rfl⟩, ⟨_, rfl, rfl⟩, ⟨_, rfl, rfl⟩, fun i => (by cases i <;> nofun)⟩

/-- Both values of `SNF`: no byte gives 1 in every build, and the two `AT` codes give 0 in a build that prints
`AT`. -/
theorem witness_SnfMarksAnUnmatchedSentinel :
    (∃ t, exec .cdec (sample 0 [] [] [] []) = .next t ∧ t.snfField = true) ∧
    (∃ t, exec .decb (sample 0 [] [] [] []) = .next t ∧ t.snfField = true) ∧
    (cdecIn Build.specVectors (sample 0 [] [0x40, 0x40] [] [])).snfField = false ∧
    (∃ t, exec .tobytes (sample 0 [] [] [1] []) = .next t ∧ t.errField ≠ 0) ∧ ∀ i, decode 0x09 ≠ .ok i :=
  ⟨⟨_, rfl, rfl⟩, ⟨_, rfl, rfl⟩, by decide, ⟨_, rfl, by decide⟩, fun i => (by cases i <;> nofun)⟩

theorem witness_ParamIsRaisedExactlyOnNegativeN :
    (sample (-1) [] [] [] []).n < 0 ∧ 0 ≤ (sample 0 [] [] [] []).n ∧
    ∃ t, exec .extract (sample (-1) [] [] [] []) = .next t := ⟨by decide, by decide, _, rfl⟩

theorem witness_CapacityIsRaisedExactlyOnALongPayload :
    (sample 0 [] [] [1, 1] [0x00]).pix.length < (sample 0 [] [] [1, 1] [0x00]).bit.length ∧
    (sample 0 [] [] [1] [0x00]).bit.length ≤ (sample 0 [] [] [1] [0x00]).pix.length := by decide

theorem witness_AlignIsRaisedExactlyOnAPartialGroup :
    (sample 0 [] [] [1, 1, 1, 1, 1, 1, 1] []).bit.length % 8 ≠ 0 ∧
    (sample 0 [] [] [1, 1, 1, 1, 1, 1, 1, 1] []).bit.length % 8 = 0 ∧
    (sample 0 [] [] [] []).bit.length % 8 = 0 := by decide

theorem witness_FatalErrorsArePrecise :
    Instr.tobytes ≠ .encb ∧ Instr.tobytes ≠ .decb ∧
    ∃ t, exec .tobytes (sample 0 [] [0x99] [1] []) = .next t ∧ t.errField ≠ 0 :=
  ⟨by decide, by decide, _, rfl, by decide⟩

theorem witness_FirstFailingStageReports :
    (∀ i, decode 0xFF ≠ .ok i) ∧
    (∃ t, exec .tobits (sample 0 [] [] [] []) = .next t) ∧
    (∃ t, exec .encb (sample (-1) [] [] [] []) = .next t) ∧
    (∃ t, exec .tobytes (sample 0 [] [] [1] []) = .next t) ∧
    (∃ t, exec .embed (sample 0 [] [] [1] []) = .next t) ∧
    (∃ t, exec .decb (sample (-1) [] [] [1] []) = .next t) ∧
    ∃ t, exec .cdec (sample 0 [] [] [] []) = .next t ∧ t.snfField = true :=
  ⟨fun i => (by cases i <;> nofun), ⟨_, rfl⟩, ⟨_, rfl⟩, ⟨_, rfl⟩, ⟨_, rfl⟩, ⟨_, rfl⟩, _, rfl, rfl⟩

/-! ## Witnesses: reads and writes -/

theorem witness_CommandsWriteOnlyTheirSpaces :
    ∃ t, exec .cenc (sample 3 [0x48] [] [] []) = .next t ∧ Space.txt ∉ writtenSpaces .cenc :=
  ⟨_, rfl, by decide⟩

/-- Two states that differ in everything EMBED does not read. -/
theorem witness_CommandsReadOnlyTheirInputs :
    SameInputs .embed (sample 1 [0x01] [0x02] [1] [0x03]) (sample (-4) [] [] [1] [0x03]) ∧
    (∃ t, exec .embed (sample 1 [0x01] [0x02] [1] [0x03]) = .next t) ∧
    ∃ t, exec .embed (sample (-4) [] [] [1] [0x03]) = .next t :=
  ⟨⟨by decide, by decide⟩, ⟨_, rfl⟩, _, rfl⟩

theorem witness_HiddenRegistersNeverReachTheHost :
    ∃ t u, exec .cenc (sample 3 [0x48] [] [] []) = .next t ∧
      exec .cenc { sample 3 [0x48] [] [] [] with
        hidden := { cp := 2, rpt := 1, idx := 7, w := [0x40], out := [0x41], outBits := [1] }
        freeDraws := 9 } = .next u := ⟨_, _, rfl, rfl⟩

/-! ## Witnesses: unit CC -/

theorem witness_CencEncodesAsR96 :
    (sample (-1) [0x48] [] [] []).n < 0 ∧ (sample 0 [0x48] [] [] []).n = (0 : Nat) ∧
    (sample 300 [0x48] [] [] []).n = (300 : Nat) := ⟨by decide, rfl, rfl⟩

theorem witness_CencShiftsByOutputIndex : (sample 3 [0x48] [] [] []).n = (3 : Nat) := rfl

theorem witness_CencLengthLaw : (sample 3 [0x48, 0x69] [] [] []).n = (3 : Nat) := rfl

theorem witness_CencWithZeroIsIdentityWithSentinel : (sample 0 [0x48] [] [] []).n = 0 := rfl

/-- At the first step, with the whole output still to come, and at the last. -/
theorem witness_CencStepMachineBuildsTheOutput :
    (sample 1 [0x61] [] [] []).n = (1 : Nat) ∧
    0 < (cencIn Build.specVectors (sample 1 [0x61] [] [] [])).chr.length ∧
    3 ≤ (cencIn Build.specVectors (sample 1 [0x61] [] [] [])).chr.length := ⟨rfl, by decide, by decide⟩

theorem witness_CdecDecodesAsR100 :
    (sample (-1) [] [0x40] [] []).n < 0 ∧ (sample 0 [] [0x40] [] []).n = (0 : Nat) := ⟨by decide, rfl⟩

theorem witness_BytesAfterTheSentinelAreIgnored :
    (cdecIn Build.specVectors (sample 0 [] [0x40, 0x40] [] [])).status = 0x00 := by decide

/-- The first step, and the last one of an input without sentinel, are steps that have not stopped. -/
theorem witness_CdecStepMachineBuildsTheText :
    let s := sample 1 [] [0x61, 0x62] [] []
    s.n = (1 : Nat) ∧
    ∀ k ∈ [0, 2], k ≤ s.chr.length ∧
      ((CdecSeq.step Build.specVectors 1 s.chr)^[k] (CdecSeq.start s.hidden)).found = false :=
  ⟨rfl, by decide⟩

/-- The empty text meets h1 to h6 in the build of the vectors. -/
theorem carriable_nil : Carriable Build.specVectors [] where
  printable := by simp
  notSpecial := by simp
  atNotSpecial := by decide
  atPrintable := by decide
  noAtPair := by simp
  lastNotAt := by simp

/-- "Hi" meets h1 to h6 in the build of the vectors. -/
theorem carriable_Hi : Carriable Build.specVectors [0x48, 0x69] where
  printable := by decide
  notSpecial := by decide
  atNotSpecial := by decide
  atPrintable := by decide
  noAtPair i h := by
    match i, h with
    | 0, h => exact absurd h.1 (by decide)
    | 1, h => exact absurd h.1 (by decide)
    | _ + 2, h => simp at h
  lastNotAt := by decide

theorem witness_CipherRoundTrip :
    0 ≤ (sample 3 [0x48, 0x69] [] [] []).n ∧ Carriable Build.specVectors (sample 3 [0x48, 0x69] [] [] []).txt ∧
    0 ≤ (sample 0 [] [] [] []).n ∧ Carriable Build.specVectors (sample 0 [] [] [] []).txt :=
  ⟨by decide, carriable_Hi, by decide, carriable_nil⟩

/-! ## Witnesses: units BP and PX -/

theorem witness_TobitsExpandsMostSignificantBitFirst :
    (sample 0 [] [0x48, 0x6A] [] []).chr[1]? = some 0x6A ∧ 0 < 8 ∧ 7 < 8 := by decide

theorem witness_TobytesReassemblesBigEndian :
    (sample 0 [] [] [1] []).bit.length % 8 ≠ 0 ∧
    (sample 0 [] [] [0, 1, 0, 0, 0, 0, 1, 1] []).bit.length % 8 = 0 ∧
    0 < (tobytes (sample 0 [] [] [0, 1, 0, 0, 0, 0, 1, 1] [])).chr.length := by decide

theorem witness_TobitsAndTobytesAreInverse :
    (sample 0 [] [] [0, 1, 0, 0, 0, 0, 1, 1] []).bit.length % 8 = 0 ∧ (sample 0 [] [] [] []).bit.length % 8 = 0 := by
  decide

theorem witness_BitLengthLaw :
    (∃ t, exec .tobits (sample 0 [] [0x48] [] []) = .next t) ∧
    (∃ t, exec .encb (sample 0 [0x48] [] [] []) = .next t ∧ t.errField = 0) ∧
    ∃ t, exec .extract (sample 0 [] [] [] [0x01, 0x02, 0x03]) = .next t := ⟨⟨_, rfl⟩, ⟨_, rfl, rfl⟩, _, rfl⟩

theorem witness_BitStepMachinesBuildTheOutputs :
    (sample 0 [] [] [0, 1, 0, 0, 0, 0, 1, 1] []).bit.length % 8 = 0 := by decide

/-- A payload too long by one; one as long as the carrier; one shorter, with an index beyond it. -/
theorem witness_EmbedReplacesLeastSignificantBits :
    (sample 0 [] [] [1] []).pix.length < (sample 0 [] [] [1] []).bit.length ∧
    (let s := sample 0 [] [] [1] [0x10]
     s.bit.length ≤ s.pix.length ∧ s.pix[0]? = some 0x10 ∧ s.bit[0]? = some 1) ∧
    (let s := sample 0 [] [] [1] [0x10, 0x11]
     s.bit.length ≤ s.pix.length ∧ s.pix[1]? = some 0x11 ∧ s.bit.length ≤ 1) := by decide

theorem witness_EmbedIsolatesTheLsb :
    (sample 0 [] [] [1] [0xFE]).pix = [0xFE] ∧ (sample 0 [] [] [1] [0xFE]).bit = [1] := ⟨rfl, rfl⟩

theorem witness_EmbedIsIdempotent :
    ∃ t u, exec .embed (sample 0 [] [] [1] [0x10]) = .next t ∧ exec .embed t = .next u := ⟨_, _, rfl, rfl⟩

theorem witness_ExtractReadsTheWholeCarrier : (sample 0 [] [] [] [0x10, 0x11]).pix[1]? = some 0x11 := rfl

theorem witness_ExtractRecoversTheEmbeddedBits :
    let s := sample 0 [] [] [1] [0x10, 0x11]
    s.bit.length ≤ s.pix.length ∧ s.bit.length ≤ 1 ∧ s.pix[1]? = some 0x11 := by decide

/-! ## Witnesses: composites, scripts, the host port -/

theorem witness_EncbRunsCencThenTobits :
    (sample (-1) [0x61] [] [] []).n < 0 ∧ (sample 0 [0x61] [] [] []).n = (0 : Nat) := ⟨by decide, rfl⟩

theorem witness_DecbRunsTobytesThenCdec :
    (sample 0 [] [] [1] []).bit.length % 8 ≠ 0 ∧
    (let s := sample (-1) [] [] [0, 1, 0, 0, 0, 0, 0, 0] []
     s.bit.length % 8 = 0 ∧ s.n < 0) ∧
    (let s := sample 0 [] [] [] []
     s.bit.length % 8 = 0 ∧ 0 ≤ s.n) := by decide

/-- The empty text has 16 payload bits in every build: a carrier of 15 is too short and one of 16 is not. -/
theorem witness_HideOutcomes (b : Build) :
    (sample (-1) [] [] [] []).n < 0 ∧ (sample 0 [] [] [] []).n = (0 : Nat) ∧
    (sample 0 [] [] [] (List.replicate 15 0xFF)).pix.length < 8 * (encodeFrom b 0 [] 0).length ∧
    8 * (encodeFrom b 0 [] 0).length ≤ (sample 0 [] [] [] (List.replicate 16 0xFF)).pix.length :=
  ⟨by decide, rfl, by simp [sample, encodeFrom], by simp [sample, encodeFrom]⟩

theorem witness_RevealOutcomes :
    (sample 0 [] [] [] [0x01]).pix.length % 8 ≠ 0 ∧
    (sample (-1) [] [] [] []).pix.length % 8 = 0 ∧ (sample (-1) [] [] [] []).n < 0 ∧
    (sample 0 [] [] [] (List.replicate 8 0x01)).pix.length % 8 = 0 ∧ (sample 0 [] [] [] []).n = (0 : Nat) := by decide

/-- P1's text and `N`, on a carrier of exactly 40 elements. -/
theorem witness_EndToEndRoundTrip :
    let s := sample 3 [0x48, 0x69] [] [] (List.replicate 40 0xFF)
    0 ≤ s.n ∧ Carriable Build.specVectors s.txt ∧
    8 * (cencIn Build.specVectors s).chr.length ≤ s.pix.length ∧ s.pix.length % 8 = 0 :=
  ⟨by decide, carriable_Hi, by decide, by decide⟩

theorem witness_ScriptsStopAfterTheFirstError :
    [ScriptLine.setN 1, .comment "x"].all ScriptLine.wf = true ∧
    (∃ t, exec .tobits State.reset = .next t ∧ t.endedOk = true) ∧
    (∃ t, exec .tobytes (sample 0 [] [] [1] []) = .next t ∧ t.endedOk = false) ∧
    (let s := sample 0 [0x61] [0x62] [1] [0x63]
     1 ≤ s.txt.length ∧ 0 ≤ s.txt.length ∧ 1 ≤ s.chr.length ∧ 1 ≤ s.bit.length ∧ 1 ≤ s.pix.length ∧
      s.len .txt < 2) ∧
    (∀ c ∈ ['A', '\x7f'], c.toNat < 128) ∧
    ((∀ i, ScriptLine.setN 3 ≠ .command i) ∧ ScriptLine.setN 3 ≠ .hide ∧ ScriptLine.setN 3 ≠ .reveal ∧
      ∃ t, runScript [.setN 3] State.reset = .next t) ∧
    decode 0x08 = .ok .decb :=
  ⟨rfl, ⟨_, rfl, rfl⟩, ⟨_, rfl, rfl⟩, by decide, by simp, ⟨nofun, nofun, nofun, _, rfl⟩, rfl⟩

/-- A length equal to the current one and the length 0 are both allowed; the last valid index is 0. -/
theorem witness_HostActionsDoWhatTheInterfaceSays :
    (withActions [.writeN (-1)]).pending = .writeN (-1) :: [] ∧
    (withActions [.load (.bit [1])]).pending = .load (.bit [1]) :: [] ∧
    (let s := { sample 0 [0x61] [] [] [] with pending := [.writeLen .txt 1] }
     s.pending = .writeLen .txt 1 :: [] ∧ 1 ≤ s.len .txt) ∧
    (let s := { sample 0 [0x61] [] [] [] with pending := [.writeLen .txt 0] }
     s.pending = .writeLen .txt 0 :: [] ∧ 0 ≤ s.len .txt) ∧
    (let s := { sample 0 [0x61] [] [] [] with pending := [.readElem .txt 0] }
     s.pending = .readElem .txt 0 :: [] ∧ 0 < s.len .txt) ∧
    (withActions [.readReg 6]).pending = .readReg 6 :: [] ∧
    (withActions [.readBuf .pix]).pending = .readBuf .pix :: [] := by decide

theorem witness_RegisterNumbersNameTheTable :
    7 ≤ 7 ∧ ((-1 : Int) < 0 ∨ 256 ≤ (-1 : Int)) ∧ ((256 : Int) < 0 ∨ 256 ≤ (256 : Int)) ∧ 3 ≤ 3 ∧ 6 ≤ 6 := by decide

/-- The state with one element of text and the host's next action. -/
def oneChar (a : HostAction) : State := { sample 0 [0x61] [] [] [] with pending := [a] }

/-- The first value outside the interface, for each clause. -/
theorem witness_OnlyOutsideActionsAreRefused :
    ((oneChar (.writeLen .txt 2)).pending = .writeLen .txt 2 :: [] ∧ (oneChar (.writeLen .txt 2)).len .txt < 2) ∧
    ((oneChar (.writeReg 3 2)).pending = .writeReg 3 2 :: [] ∧ regOfNumber 3 = some (.len .txt) ∧
      (oneChar (.writeReg 3 2)).len .txt < 2) ∧
    ((oneChar (.readElem .txt 1)).pending = .readElem .txt 1 :: [] ∧ (oneChar (.readElem .txt 1)).len .txt ≤ 1) ∧
    (oneChar (.readReg 0)).pending = .readReg 0 :: [] ∧ (oneChar (.readReg 7)).pending = .readReg 7 :: [] ∧
    (oneChar (.writeReg 7 0)).pending = .writeReg 7 0 :: [] ∧
    (oneChar (.writeStatus 0x00)).pending = .writeStatus 0x00 :: [] ∧
    (oneChar (.writeReg 1 0)).pending = .writeReg 1 0 :: [] ∧
    (oneChar (.writeReg 0 256)).pending = .writeReg 0 256 :: [] ∧
    (oneChar (.writeReg 6 (-1))).pending = .writeReg 6 (-1) :: [] := by decide

/-- Each of these refusals happens, at the first value outside the interface. -/
theorem test_refusals_of_the_host_port :
    step (oneChar (.writeLen .txt 2)) = .refused .lengthRaised ∧
    step (oneChar (.writeReg 3 2)) = .refused .lengthRaised ∧
    step (oneChar (.readElem .txt 1)) = .refused .indexBeyondLength ∧
    step (oneChar (.readReg 0)) = .refused .cmdRead ∧ step (oneChar (.readReg 7)) = .refused .noSuchRegister ∧
    step (oneChar (.writeReg 7 0)) = .refused .noSuchRegister ∧
    step (oneChar (.writeStatus 0x00)) = .refused .statusWrite ∧
    step (oneChar (.writeReg 1 0)) = .refused .statusWrite ∧
    step (oneChar (.writeReg 0 256)) = .refused .valueNotOfRegister ∧
    step (oneChar (.writeReg 6 (-1))) = .refused .valueNotOfRegister :=
  ⟨rfl, rfl, rfl, rfl, rfl, rfl, rfl, rfl, rfl, rfl⟩

/-- R30: register 0 takes a command word, 2 is `N`, 3 is `TXT_LEN`. -/
theorem test_write_by_number :
    step (oneChar (.writeReg 0 0)) = .next ((sample 0 [0x61] [] [] []).setStatus 0x04) ∧
    step (oneChar (.writeReg 2 (-5))) = .next (sample (-5) [0x61] [] [] []) ∧
    step (oneChar (.writeReg 3 0)) = .next (sample 0 [] [] [] []) := ⟨rfl, rfl, rfl⟩

end Sys2Proof.Tests
end

section
/-! PROOFS, family 10_state. What the commands leave in `STATUS` (spec/10_state.md R25 to R27, R36). -/

namespace Sys2Proof.Machine

/-! ## The fields of `STATUS` -/

/-- The three fields of a `STATUS` made of an error code and a flag (R25). -/
theorem State.fields_of_status {s : State} {e : ErrCode} {f : Bool} (h : s.status = statusWord e f) :
    s.errField = e.code ∧ s.snfField = f ∧ s.statusReserved = 0 := by
  unfold State.errField State.snfField State.statusReserved
  rw [h]
  cases e <;> cases f <;> decide

theorem ErrCode.code_injective : Function.Injective ErrCode.code := by
  intro e e' h
  cases e <;> cases e' <;> simp_all [ErrCode.code]

/-- Every code but `ILLEGAL` is 3 or below (R26). -/
theorem ErrCode.code_toNat_le_three {e : ErrCode} (h : e ≠ .illegal) : e.code.toNat ≤ 3 := by
  cases e with
  | illegal => exact absurd rfl h
  | ok | capacity | param | align => decide

/-! ## Issuing a word -/

/-- A command answers exactly the next state `commandIn` gives. -/
theorem exec_eq_next_iff {i : Instr} {s t : State} :
    exec i s = .next t ↔ commandIn Config.build i s = t := by
  rw [exec_eq, Host.Outcome.next.injEq]

/-- A word that decodes to no command is `ILLEGAL` and changes nothing else (R73). -/
theorem issue_of_forall_ne_ok {w : Byte} (h : ∀ i, decode w ≠ .ok i) (s : State) :
    issue w s = .next (s.raise .illegal) := by
  cases hd : decode w with
  | ok i => exact absurd hd (h i)
  | error e => exact issue_of_illegal hd s

/-- What issuing a word can lead to: its command's next state, or `ILLEGAL`. -/
theorem issue_cases {w : Byte} {s t : State} (h : issue w s = .next t) :
    (∃ i, decode w = .ok i ∧ t = commandIn Config.build i s) ∨
    ((∀ i, decode w ≠ .ok i) ∧ t = s.raise .illegal) := by
  cases hd : decode w with
  | ok i =>
    rw [issue_of_decode hd, exec_eq_next_iff] at h
    exact .inl ⟨i, rfl, h.symm⟩
  | error e =>
    rw [issue_of_illegal hd, Host.Outcome.next.injEq] at h
    exact .inr ⟨nofun, h.symm⟩

/-! ## The composites, by the outcome of their stages -/

/-- TOBITS does one thing: it cannot fail (R121). -/
theorem tobits_eq (s : State) : tobits s = (s.setBit (serialize s.chr)).complete false := rfl

/-- EXTRACT does one thing: it cannot fail (R137). -/
theorem extract_eq (s : State) : extract s = (s.setBit (s.pix.map lsb)).complete false := rfl

/-- ENCB raises what CENC raises, or ends as TOBITS does after it (R151). -/
theorem encbIn_cases (b : Build) (s : State) :
    (s.n < 0 ∧ encbIn b s = s.raise .param) ∨
    (∃ n : Nat, s.n = n ∧
      encbIn b s = tobits ((s.setChr (encodeFrom b n s.txt 0)).complete false)) := by
  unfold encbIn
  obtain ⟨hn, e⟩ | ⟨n, hn, e⟩ := cencIn_cases b s
  · exact .inl ⟨hn, by rw [e, thenStage_raise _ _ _ (by decide)]⟩
  · exact .inr ⟨n, hn, by rw [e, thenStage_complete, cencLoop_out]⟩

/-- DECB raises what TOBYTES raises, or is CDEC after it (R152). -/
theorem decbIn_cases (b : Build) (s : State) :
    (s.bit.length % 8 ≠ 0 ∧ decbIn b s = s.raise .align) ∨
    (s.bit.length % 8 = 0 ∧
      decbIn b s = cdecIn b ((s.setChr (deserialize s.bit)).complete false)) := by
  unfold decbIn
  obtain ⟨hb, e⟩ | ⟨hb, e⟩ := tobytes_cases s
  · exact .inl ⟨hb, by rw [e, thenStage_raise _ _ _ (by decide)]⟩
  · exact .inr ⟨hb, by rw [e, thenStage_complete]⟩

/-- HIDE is EMBED after ENCB (R153). -/
theorem hideIn_eq (b : Build) (s : State) : hideIn b s = thenStage embed (encbIn b s) := rfl

/-- REVEAL is DECB after EXTRACT, which cannot fail (R154). -/
theorem revealIn_eq (b : Build) (s : State) : revealIn b s = decbIn b (extract s) := by
  simp [revealIn, decbIn, extract_eq]

/-- HIDE does one of three things (R153): CENC raises, EMBED raises, or every stage completes. -/
theorem hideIn_cases (b : Build) (s : State) :
    (s.n < 0 ∧ hideIn b s = s.raise .param) ∨
    (∃ n : Nat, s.n = n ∧ s.pix.length < 8 * (encodeFrom b n s.txt 0).length ∧
      hideIn b s = (encbIn b s).raise .capacity) ∨
    (∃ n : Nat, s.n = n ∧ 8 * (encodeFrom b n s.txt 0).length ≤ s.pix.length ∧
      hideIn b s = ((encbIn b s).setPix
        (embedLsbs s.pix (serialize (encodeFrom b n s.txt 0)))).complete false) := by
  rw [hideIn_eq]
  obtain ⟨hn, e⟩ | ⟨n, hn, e⟩ := encbIn_cases b s
  · exact .inl ⟨hn, by rw [e, thenStage_raise _ _ _ (by decide)]⟩
  · rw [e, tobits_eq, thenStage_complete]
    obtain ⟨hl, e'⟩ | ⟨hl, e'⟩ := embed_cases ((((s.setChr (encodeFrom b n s.txt 0)).complete false).setBit
      (serialize (encodeFrom b n s.txt 0))).complete false)
    · exact .inr (.inl ⟨n, hn, by simpa [serialize_length] using hl, e'⟩)
    · exact .inr (.inr ⟨n, hn, by simpa [serialize_length] using hl, e'⟩)

/-! ## The code a command ends with -/

/-- The value of `STATUS.ERR` a command ends with (R26), read off the state it starts in; `commandIn_errField`
ties it to the commands. -/
def endCode (i : Instr) (s : State) : ErrCode :=
  match i with
  | .cenc | .cdec | .encb => if s.n < 0 then .param else .ok
  | .tobits | .extract => .ok
  | .tobytes => if s.bit.length % 8 = 0 then .ok else .align
  | .embed => if s.pix.length < s.bit.length then .capacity else .ok
  | .decb => if s.bit.length % 8 = 0 then (if s.n < 0 then .param else .ok) else .align

/-- The whole `STATUS` a command leaves: its code, and a flag that only CDEC and DECB set, ending OK (R25, R27). -/
theorem commandIn_status (b : Build) (i : Instr) (s : State) :
    ∃ f, (commandIn b i s).status = statusWord (endCode i s) f ∧
      (f = true → (i = .cdec ∨ i = .decb) ∧ endCode i s = .ok) := by
  cases i with
  | tobits | extract => exact ⟨false, rfl, nofun⟩
  | cenc =>
    refine ⟨false, ?_, nofun⟩
    obtain ⟨hn, e⟩ | ⟨n, hn, e⟩ := cencIn_cases b s
    · simp [commandIn, e, endCode, hn]
    · simp [commandIn, e, endCode, show ¬ s.n < 0 by omega]
  | cdec =>
    obtain ⟨hn, e⟩ | ⟨n, hn, e⟩ := cdecIn_cases b s
    · exact ⟨false, by simp [commandIn, e, endCode, hn], nofun⟩
    · exact ⟨_, by simp only [commandIn, e, endCode, hn]; rfl, by simp [endCode, hn]⟩
  | tobytes =>
    refine ⟨false, ?_, nofun⟩
    obtain ⟨hb, e⟩ | ⟨hb, e⟩ := tobytes_cases s <;> simp [commandIn, e, endCode, hb]
  | embed =>
    refine ⟨false, ?_, nofun⟩
    obtain ⟨hl, e⟩ | ⟨hl, e⟩ := embed_cases s
    · simp [commandIn, e, endCode, hl]
    · simp [commandIn, e, endCode, hl.not_gt]
  | encb =>
    refine ⟨false, ?_, nofun⟩
    obtain ⟨hn, e⟩ | ⟨n, hn, e⟩ := encbIn_cases b s
    · simp [commandIn, e, endCode, hn]
    · simp [commandIn, e, endCode, tobits_eq, show ¬ s.n < 0 by omega]
  | decb =>
    obtain ⟨hb, e⟩ | ⟨hb, e⟩ := decbIn_cases b s
    · exact ⟨false, by simp [commandIn, e, endCode, hb], nofun⟩
    · obtain ⟨hn, e'⟩ | ⟨n, hn, e'⟩ := cdecIn_cases b ((s.setChr (deserialize s.bit)).complete false)
      · exact ⟨false, by simp_all [commandIn, endCode], nofun⟩
      · replace hn : s.n = n := hn
        exact ⟨_, by simp only [commandIn, e, e', endCode, hb, hn]; rfl, by simp [endCode, hb, hn]⟩

theorem commandIn_errField (b : Build) (i : Instr) (s : State) :
    (commandIn b i s).errField = (endCode i s).code := by
  obtain ⟨f, h, -⟩ := commandIn_status b i s
  exact (State.fields_of_status h).1

theorem commandIn_statusReserved (b : Build) (i : Instr) (s : State) :
    (commandIn b i s).statusReserved = 0 := by
  obtain ⟨f, h, -⟩ := commandIn_status b i s
  exact (State.fields_of_status h).2.2

/-- Only CDEC and DECB set `SNF`, and only when they end OK (R27). -/
theorem commandIn_snfField {b : Build} {i : Instr} {s : State} (h : (commandIn b i s).snfField = true) :
    (i = .cdec ∨ i = .decb) ∧ (commandIn b i s).errField = 0 := by
  obtain ⟨f, hs, hf⟩ := commandIn_status b i s
  obtain ⟨he, hsnf, -⟩ := State.fields_of_status hs
  obtain ⟨hi, hok⟩ := hf (hsnf ▸ h)
  exact ⟨hi, by rw [he, hok]; rfl⟩

/-! ### Which command ends with which code -/

theorem endCode_reset (i : Instr) : endCode i State.reset = .ok := by cases i <;> rfl

theorem endCode_eq_capacity_iff {i : Instr} {s : State} :
    endCode i s = .capacity ↔ i = .embed ∧ s.pix.length < s.bit.length := by
  cases i <;> simp [endCode, ite_eq_iff]

theorem endCode_eq_param_iff {i : Instr} {s : State} :
    endCode i s = .param ↔ readsN i = true ∧ s.n < 0 ∧ (i = .decb → s.bit.length % 8 = 0) := by
  cases i <;> simp [endCode, readsN, ite_eq_iff, and_comm]

theorem endCode_eq_align_iff {i : Instr} {s : State} :
    endCode i s = .align ↔ (i = .tobytes ∨ i = .decb) ∧ s.bit.length % 8 ≠ 0 := by
  cases i <;> simp [endCode, ite_eq_iff]

theorem endCode_ne_illegal (i : Instr) (s : State) : endCode i s ≠ .illegal := by
  cases i <;> simp [endCode, ite_eq_iff]

/-- The commands that read `N` (R51). -/
theorem readsN_iff {i : Instr} : readsN i = true ↔ i = .cenc ∨ i = .cdec ∨ i = .encb ∨ i = .decb := by
  cases i <;> simp [readsN]

theorem canEndWith_iff {i : Instr} {e : ErrCode} : CanEndWith i e ↔ ∃ s, endCode i s = e := by
  simp [CanEndWith, exec_eq_next_iff, commandIn_errField, ErrCode.code_injective.eq_iff]

theorem canEndWith_ok (i : Instr) : CanEndWith i .ok := canEndWith_iff.mpr ⟨State.reset, endCode_reset i⟩

theorem canEndWith_capacity_iff {i : Instr} : CanEndWith i .capacity ↔ i = .embed := by
  simp only [canEndWith_iff, endCode_eq_capacity_iff]
  exact ⟨fun ⟨_, h, _⟩ => h, fun h => ⟨State.reset.setBit [1], h, by decide⟩⟩

theorem canEndWith_param_iff {i : Instr} :
    CanEndWith i .param ↔ i = .cenc ∨ i = .cdec ∨ i = .encb ∨ i = .decb := by
  simp only [canEndWith_iff, endCode_eq_param_iff, readsN_iff]
  exact ⟨fun ⟨_, h, _⟩ => h, fun h => ⟨State.reset.setN (-1), h, by decide, fun _ => rfl⟩⟩

theorem canEndWith_align_iff {i : Instr} : CanEndWith i .align ↔ i = .tobytes ∨ i = .decb := by
  simp only [canEndWith_iff, endCode_eq_align_iff]
  exact ⟨fun ⟨_, h, _⟩ => h, fun h => ⟨State.reset.setBit [1], h, by decide⟩⟩

/-- HIDE ends with `OK`, `CAPACITY` or `PARAM`, in every build. For the empty text at `N = 0` the payload is 16
bits long, so that a carrier of 16 elements is enough and the empty one is not. -/
theorem exists_hideIn_errField_iff (b : Build) (e : BitVec 3) :
    (∃ s, (hideIn b s).errField = e) ↔ e = 0 ∨ e = 1 ∨ e = 2 := by
  constructor
  · rintro ⟨s, rfl⟩
    obtain ⟨-, h⟩ | ⟨n, -, -, h⟩ | ⟨n, -, -, h⟩ := hideIn_cases b s
    · exact .inr (.inr (by rw [h, State.raise_errField]; rfl))
    · exact .inr (.inl (by rw [h, State.raise_errField]; rfl))
    · exact .inl (by rw [h, State.complete_errField])
  · rintro (rfl | rfl | rfl)
    · exact ⟨State.reset.setPix (List.replicate 16 0), rfl⟩
    · exact ⟨State.reset, rfl⟩
    · exact ⟨State.reset.setN (-1), rfl⟩

/-- The code REVEAL ends with is DECB's after EXTRACT. -/
theorem revealIn_errField (b : Build) (s : State) :
    (revealIn b s).errField = (endCode .decb (extract s)).code := by
  rw [revealIn_eq]
  exact commandIn_errField b .decb (extract s)

/-- REVEAL ends with `OK`, `PARAM` or `ALIGN`, in every build. -/
theorem exists_revealIn_errField_iff (b : Build) (e : BitVec 3) :
    (∃ s, (revealIn b s).errField = e) ↔ e = 0 ∨ e = 2 ∨ e = 3 := by
  simp only [revealIn_errField]
  constructor
  · rintro ⟨s, rfl⟩
    unfold endCode
    split_ifs <;> decide
  · rintro (rfl | rfl | rfl)
    · exact ⟨State.reset, rfl⟩
    · exact ⟨State.reset.setN (-1), rfl⟩
    · exact ⟨State.reset.setPix [0], rfl⟩

/-! ## No command reads the old `STATUS` -/

section
variable (b : Build) (s : State) (v : Byte)

@[simp] theorem cencIn_setStatus : cencIn b (s.setStatus v) = cencIn b s := rfl
@[simp] theorem cdecIn_setStatus : cdecIn b (s.setStatus v) = cdecIn b s := rfl
@[simp] theorem tobits_setStatus : tobits (s.setStatus v) = tobits s := rfl
@[simp] theorem tobytes_setStatus : tobytes (s.setStatus v) = tobytes s := rfl
@[simp] theorem embed_setStatus : embed (s.setStatus v) = embed s := rfl
@[simp] theorem extract_setStatus : extract (s.setStatus v) = extract s := rfl

/-- A composite reads the old `STATUS` no more than its first stage does. -/
@[simp] theorem commandIn_setStatus (i : Instr) : commandIn b i (s.setStatus v) = commandIn b i s := by
  cases i <;> simp [commandIn, encbIn, decbIn]

theorem exec_setStatus (i : Instr) : exec i (s.setStatus v) = exec i s := by
  simp [exec_eq]

theorem issue_setStatus (w : Byte) : issue w (s.setStatus v) = issue w s := by
  cases hd : decode w with
  | ok i => rw [issue_of_decode hd, issue_of_decode hd, exec_setStatus]
  | error e => rw [issue_of_illegal hd, issue_of_illegal hd]; rfl

end

/-! ## Which host actions leave `STATUS` -/

/-- A write by number to a register other than `CMD` leaves `STATUS`. -/
theorem writeReg_status {num : Nat} {v : Int} {s t : State} (hnum : num ≠ 0) (h : writeReg num v s = .next t) :
    t.status = s.status := by
  obtain ⟨h0, -⟩ | ⟨-, rfl⟩ | ⟨sp, k, -, -, -, rfl⟩ := writeReg_cases h
  · exact absurd h0 hnum
  · rfl
  · exact s.truncate_status sp k

/-- An action that is neither a command nor reset leaves `STATUS` (R25). -/
theorem hostAct_status {a : HostAction} {s t : State} (hc : a.isCommand = false) (hr : a ≠ .reset)
    (h : hostAct a s = .next t) : t.status = s.status := by
  obtain ⟨w, rfl, -⟩ | ⟨v, -, rfl⟩ | ⟨sp, k, -, -, rfl⟩ | ⟨q, -, rfl⟩ | ⟨num, v, rfl, hw⟩ | ⟨num, v, -, -, rfl⟩ |
    ⟨sp, -, rfl⟩ | ⟨sp, i, v, -, -, rfl⟩ | ⟨ha, -⟩ := hostAct_cases h
  · cases hc
  · rfl
  · exact s.truncate_status sp k
  · exact s.setBuf_status q
  · exact writeReg_status (by simpa [HostAction.isCommand] using hc) hw
  · rfl
  · rfl
  · rfl
  · exact absurd ha hr

/-- Issuing any word leaves the reserved bits 0 (R25). -/
theorem issue_statusReserved {w : Byte} {s t : State} (h : issue w s = .next t) : t.statusReserved = 0 := by
  obtain ⟨i, -, rfl⟩ | ⟨-, rfl⟩ := issue_cases h
  · exact commandIn_statusReserved Config.build i s
  · exact (State.fields_of_status (s.raise_status .illegal)).2.2

/-! ## When the loop of CDEC matches the sentinel -/

/-- The decoded codes of R100 line 6 when the loop starts at cycle position `cp`. -/
def decodedFrom (n cp : Nat) (chr : List Byte) : List Byte :=
  chr.mapIdx fun i x => shiftDown x (advances n i cp)

theorem decodedFrom_zero (n : Nat) (chr : List Byte) : decodedFrom n 0 chr = decodedCodes n chr := rfl

theorem decodedFrom_cons (n cp : Nat) (x : Byte) (xs : List Byte) :
    decodedFrom n cp (x :: xs) = shiftDown x cp :: decodedFrom n (advance n cp) xs := by
  simp [decodedFrom, advances]

/-- No pair of `AT` ends the empty working result. -/
theorem not_endsInAtAt_nil (b : Build) : ¬ EndsInAtAt b [] := by
  simp [EndsInAtAt]

/-- The loop started with any `W` and `CP` matches the sentinel exactly when some further bytes make `W` end in
it (R100 lines 4 to 10). -/
theorem cdecLoop_found_iff (b : Build) (n : Nat) (xs : List Byte) (h : Hidden) :
    (cdecLoop b n xs h).2 = true ↔
      ∃ k < xs.length, EndsInAtAt b (h.w ++ ((decodedFrom n h.cp xs).take (k + 1)).filter b.isPrint) := by
  induction xs generalizing h with
  | nil => simp [cdecLoop]
  | cons x xs ih =>
    have hw : ∀ k, h.w ++ ((decodedFrom n h.cp (x :: xs)).take (k + 1)).filter b.isPrint =
        (cdecByte b n h x).w ++ ((decodedFrom n (cdecByte b n h x).cp xs).take k).filter b.isPrint := fun k => by
      rw [decodedFrom_cons, cdecByte_w, cdecByte_cp, List.take_succ_cons, List.append_assoc, ← List.filter_append]
      rfl
    simp only [hw, List.length_cons, Nat.exists_lt_succ_left, List.take_zero, List.filter_nil, List.append_nil,
      ← endsInSentinel_iff, cdecLoop]
    split
    case isTrue hs => simp [hs]
    case isFalse hs => simp [hs, ih, endsInSentinel_iff]

/-- CDEC's loop, from its start, matches the sentinel exactly when some initial segment of the
input decodes to one that ends in it. -/
theorem cdecLoop_startCipher_found_iff (b : Build) (n : Nat) (chr : List Byte) (h : Hidden) :
    (cdecLoop b n chr h.startCipher).2 = true ↔ SentinelFound b n chr := by
  simp only [cdecLoop_found_iff, Hidden.startCipher, decodedFrom_zero, List.nil_append]
  constructor
  · rintro ⟨k, hk, hs⟩
    exact ⟨k + 1, hk, hs⟩
  · rintro ⟨k, hk, hs⟩
    cases k with
    | zero => exact absurd hs (not_endsInAtAt_nil b)
    | succ k => exact ⟨k, hk, hs⟩

/-! ## When `SNF` is set -/

/-- CDEC leaves its input. -/
theorem cdecIn_chr (b : Build) (s : State) : (cdecIn b s).chr = s.chr := by
  obtain ⟨-, e⟩ | ⟨n, -, e⟩ := cdecIn_cases b s <;> simp [e]

theorem cdecIn_snfField_iff (b : Build) (s : State) :
    (cdecIn b s).snfField = true ↔ 0 ≤ s.n ∧ ¬ SentinelFound b s.n.toNat s.chr := by
  obtain ⟨hn, e⟩ | ⟨n, hn, e⟩ := cdecIn_cases b s
  · simp [e, State.raise_snfField, hn]
  · simp [e, State.complete_snfField, hn, ← cdecLoop_startCipher_found_iff b n s.chr s.hidden]

/-- DECB sets `SNF` as CDEC does on the bytes of its first stage. -/
theorem decbIn_snfField_iff (b : Build) (s : State) :
    (decbIn b s).snfField = true ↔
      s.bit.length % 8 = 0 ∧ 0 ≤ s.n ∧ ¬ SentinelFound b s.n.toNat (decbIn b s).chr := by
  obtain ⟨hb, e⟩ | ⟨hb, e⟩ := decbIn_cases b s
  · simp [e, State.raise_snfField, hb]
  · simp [e, cdecIn_snfField_iff, cdecIn_chr, hb]

/-- REVEAL sets `SNF` as DECB does on the bits of the carrier. -/
theorem revealIn_snfField_iff (b : Build) (s : State) :
    (revealIn b s).snfField = true ↔
      s.pix.length % 8 = 0 ∧ 0 ≤ s.n ∧ ¬ SentinelFound b s.n.toNat (revealIn b s).chr := by
  simp [revealIn_eq, decbIn_snfField_iff, extract_eq]

/-- HIDE never sets `SNF`. -/
theorem hideIn_snfField (b : Build) (s : State) : (hideIn b s).snfField = false := by
  obtain ⟨-, h⟩ | ⟨n, -, -, h⟩ | ⟨n, -, -, h⟩ := hideIn_cases b s
  · rw [h, State.raise_snfField]
  · rw [h, State.raise_snfField]
  · rw [h, State.complete_snfField]

/-! ## The obligations -/

/-- Settles O10: every command word ends in `raise` or `complete`, which write the whole `STATUS`. -/
theorem statusIsOverwrittenWholeByCommandsOnly : Obligations.StatusIsOverwrittenWholeByCommandsOnly :=
  ⟨fun _ _ _ h => State.fields_of_status h,
    fun w s v => issue_setStatus s v w,
    fun _ _ _ h => issue_statusReserved h,
    fun _ _ _ hc hr h => hostAct_status hc hr h⟩

/-- Settles O11, by the code each command ends with (`endCode`) and one state for each code that is attained. -/
theorem errorCodesHaveTheirCommands : Obligations.ErrorCodesHaveTheirCommands := by
  refine ⟨⟨rfl, rfl, rfl, rfl, rfl⟩, canEndWith_ok, fun _ => canEndWith_capacity_iff,
    fun _ => canEndWith_param_iff, fun _ => canEndWith_align_iff, ?_, ?_,
    exists_hideIn_errField_iff Config.build, exists_revealIn_errField_iff Config.build, ?_,
    fun i s v => exec_setStatus s v i⟩
  · intro i h
    obtain ⟨s, hs⟩ := canEndWith_iff.mp h
    exact endCode_ne_illegal i s hs
  · intro i s t h
    rw [← exec_eq_next_iff.mp h, commandIn_errField]
    exact ErrCode.code_toNat_le_three (endCode_ne_illegal i s)
  · intro w s h
    exact ⟨_, issue_of_forall_ne_ok h s, s.raise_errField .illegal⟩

/-- Settles O12: CDEC's loop finds the sentinel exactly when an initial segment of its input
decodes to one that ends in it, and no other stage gives `complete` the flag. -/
theorem snfMarksAnUnmatchedSentinel : Obligations.SnfMarksAnUnmatchedSentinel := by
  simp only [Obligations.SnfMarksAnUnmatchedSentinel, exec_eq_next_iff]
  refine ⟨?_, ?_, revealIn_snfField_iff Config.build, ?_, hideIn_snfField Config.build, ?_, ?_,
    fun i s v => exec_setStatus s v i⟩
  · rintro s _ rfl
    exact cdecIn_snfField_iff Config.build s
  · rintro s _ rfl
    exact decbIn_snfField_iff Config.build s
  · rintro i s _ hcdec hdecb rfl
    exact Bool.eq_false_iff.mpr fun h => (commandIn_snfField h).1.elim hcdec hdecb
  · rintro i s _ rfl he
    exact Bool.eq_false_iff.mpr fun h => he (commandIn_snfField h).2
  · intro w s h
    exact ⟨_, issue_of_forall_ne_ok h s, s.raise_snfField .illegal⟩

/-- Settles O6: the rows of R36's table that give a value. -/
theorem resetValuesAreTheTables : Obligations.ResetValuesAreTheTables :=
  ⟨rfl, rfl, rfl, fun sp => by cases sp <;> rfl⟩

end Sys2Proof.Machine
end

section
/-! PROOFS, family 30_encoding. Command words, host scripts and the host port (spec/30_encoding.md,
spec/10_state.md R38). -/

namespace Sys2Proof.Machine

/-! ## Command words -/

/-- Each row of the opcode table asks for the whole of its command's word (R71). -/
theorem opcodeTable_row : ∀ r ∈ opcodeTable, r.mask = 0xFF ∧ r.pattern = encode r.instr := by decide

theorem eq_encode_of_matchesWord {r : OpcodeRow} {w : Byte} (hr : r ∈ opcodeTable)
    (h : r.matchesWord w = true) : w = encode r.instr := by
  obtain ⟨hmask, hpattern⟩ := opcodeTable_row r hr
  have hw : w &&& r.mask = r.pattern := by simpa [OpcodeRow.matchesWord] using h
  calc w = w &&& 0xFF := (BitVec.and_allOnes (x := w)).symm
    _ = encode r.instr := by rw [← hmask, hw, hpattern]

/-- The decoder accepts a command's own word only. -/
theorem eq_encode_of_decode {w : Byte} {i : Instr} (h : decode w = .ok i) : w = encode i := by
  unfold decode at h
  split at h
  next r hfind =>
    cases h
    have hmatch : r.matchesWord w = true := List.find?_some (p := fun r : OpcodeRow => r.matchesWord w) hfind
    exact eq_encode_of_matchesWord (List.mem_of_find?_eq_some hfind) hmatch
  next => split at h <;> cases h

@[simp] theorem decode_encode (i : Instr) : decode (encode i) = .ok i := by cases i <;> rfl

theorem encode_toNat_bounds (i : Instr) : 1 ≤ (encode i).toNat ∧ (encode i).toNat ≤ 8 := by
  cases i <;> decide

/-- The words 0x00 and 0x09 to 0xFF are illegal (R73). -/
theorem decode_ne_ok_of_outside {w : Byte} (hw : w.toNat = 0 ∨ 9 ≤ w.toNat) (i : Instr) :
    decode w ≠ .ok i := by
  intro h
  have := encode_toNat_bounds i
  rw [← eq_encode_of_decode h] at this
  omega

/-! ## What the host's actions do -/

/-- The word of a command, written to `CMD`, runs the command (R28). -/
theorem hostAct_writeCmd_encode (i : Instr) (s : State) : hostAct (.writeCmd (encode i)) s = exec i s :=
  issue_of_decode (decode_encode i) s

theorem hostAct_writeLen_of_le {sp : Space} {k : Nat} {s : State} (h : k ≤ s.len sp) :
    hostAct (.writeLen sp k) s = .next (s.truncate sp k) :=
  if_pos h

theorem hostAct_writeLen_of_lt {sp : Space} {k : Nat} {s : State} (h : s.len sp < k) :
    hostAct (.writeLen sp k) s = .refused .lengthRaised :=
  if_neg h.not_ge

theorem readElem_of_lt {sp : Space} {i : Nat} {s : State} (h : i < s.len sp) :
    ∃ e, s.memRead sp i = some e ∧ readElem sp i s = .ok (.elem e) := by
  obtain ⟨e, he⟩ := Option.isSome_iff_exists.mp ((s.memRead_isSome sp i).mpr h)
  exact ⟨e, he, by simp [readElem, he]⟩

/-- Reading one element leaves the block (R57). -/
theorem hostAct_readElem_of_lt {sp : Space} {i : Nat} {s : State} (h : i < s.len sp) :
    hostAct (.readElem sp i) s = .next s := by
  obtain ⟨e, -, hr⟩ := readElem_of_lt h
  simp [hostAct, afterRead, hr]

/-- Truncation to `k` elements changes none of them (R38). -/
theorem State.memRead_truncate_of_lt {sp : Space} {i k : Nat} (s : State) (h : i < k) :
    (s.truncate sp k).memRead sp i = s.memRead sp i := by
  cases sp <;> simp [State.truncate, State.memRead, h]

/-! ### The queue of actions is no part of a space -/

section
variable (q : List HostAction) (s : State) (sp : Space)

@[simp] theorem State.len_setPending : (s.setPending q).len sp = s.len sp := by cases sp <;> rfl
@[simp] theorem State.buf_setPending : (s.setPending q).buf sp = s.buf sp := by cases sp <;> rfl
@[simp] theorem State.memRead_setPending (i : Nat) : (s.setPending q).memRead sp i = s.memRead sp i := by
  cases sp <;> rfl

end

/-! ## Running a script line by line -/

/-- With no command among them, a script's actions are followed by the rest: nothing looks at `STATUS` (R79). -/
theorem runActions_append {as bs : List HostAction} {s t : State} (hc : ∀ a ∈ as, a.isCommand = false)
    (h : runActions as s = .next t) : runActions (as ++ bs) s = runActions bs t := by
  induction as generalizing s with
  | nil => cases h; rfl
  | cons a as ih =>
    rw [List.forall_mem_cons] at hc
    obtain ⟨ha, has⟩ := hc
    simp only [runActions, List.cons_append, ha, Bool.false_and, Bool.false_eq_true, if_false] at h ⊢
    split at h
    next => exact ih has h
    next => cases h
    next => cases h

theorem runScript_of_wf {lines : List ScriptLine} (h : lines.all ScriptLine.wf = true) (s : State) :
    runScript lines s = runActions (lines.flatMap ScriptLine.actions) s :=
  if_pos h

theorem runScript_cons_of_wf {l : ScriptLine} {lines : List ScriptLine} (hl : l.wf = true)
    (h : lines.all ScriptLine.wf = true) (s : State) :
    runScript (l :: lines) s = runActions (l.actions ++ lines.flatMap ScriptLine.actions) s :=
  runScript_of_wf (by simp [hl, h]) s

/-- A line that completes alone is one of R77's, and its actions complete. -/
theorem wf_and_runActions_of_runScript {l : ScriptLine} {s t : State} (h : runScript [l] s = .next t) :
    l.wf = true ∧ runActions l.actions s = .next t := by
  cases hl : l.wf with
  | false => simp [runScript, hl] at h
  | true => exact ⟨rfl, by simpa [runScript, hl] using h⟩

/-- Only a mnemonic line and the pseudo-instructions write command words (R77, R78). -/
theorem isCommand_of_mem_actions {l : ScriptLine} (hcmd : ∀ i, l ≠ .command i) (hhide : l ≠ .hide)
    (hreveal : l ≠ .reveal) : ∀ a ∈ l.actions, a.isCommand = false := by
  cases l with
  | command i => exact absurd rfl (hcmd i)
  | hide => exact absurd rfl hhide
  | reveal => exact absurd rfl hreveal
  | setN | setLen | loadString | loadValues | comment => simp [ScriptLine.actions, HostAction.isCommand]

section
variable {lines : List ScriptLine} (hwf : lines.all ScriptLine.wf = true)
include hwf

/-- A line that writes no command word and completes alone is followed by the rest of the script. -/
theorem runScript_cons_of_next {l : ScriptLine} {s t : State} (hcmd : ∀ i, l ≠ .command i) (hhide : l ≠ .hide)
    (hreveal : l ≠ .reveal) (h : runScript [l] s = .next t) : runScript (l :: lines) s = runScript lines t := by
  obtain ⟨hl, hrun⟩ := wf_and_runActions_of_runScript h
  rw [runScript_cons_of_wf hl hwf, runScript_of_wf hwf,
    runActions_append (isCommand_of_mem_actions hcmd hhide hreveal) hrun]

/-- A command line runs its command, and the rest follows one that ended OK (R79). -/
theorem runScript_command_cons {i : Instr} {s t : State} (h : exec i s = .next t) :
    runScript (.command i :: lines) s = if t.endedOk then runScript lines t else .next t := by
  have hl : (ScriptLine.command i).wf = true := by cases i <;> rfl
  rw [runScript_cons_of_wf hl hwf, runScript_of_wf hwf]
  cases ht : t.endedOk <;>
    simp [ScriptLine.actions, runActions, hostAct_writeCmd_encode, h, HostAction.isCommand, ht]

theorem runScript_setN_cons (v : Int) (s : State) :
    runScript (.setN v :: lines) s = runScript lines (s.setN v) :=
  runScript_cons_of_next hwf nofun nofun nofun rfl

theorem runScript_setLen_cons {sp : Space} {k : Nat} {s : State} (h : k ≤ s.len sp) :
    runScript (.setLen sp k :: lines) s = runScript lines (s.truncate sp k) := by
  refine runScript_cons_of_next hwf nofun nofun nofun ?_
  simp [runScript, ScriptLine.wf, ScriptLine.actions, runActions, hostAct_writeLen_of_le h,
    HostAction.isCommand]

theorem runScript_setLen_cons_of_lt {sp : Space} {k : Nat} {s : State} (h : s.len sp < k) :
    runScript (.setLen sp k :: lines) s = .refused .lengthRaised := by
  rw [runScript_cons_of_wf rfl hwf]
  simp [ScriptLine.actions, runActions, hostAct_writeLen_of_lt h]

theorem runScript_loadValues_cons (q : SpaceSeq) (s : State) :
    runScript (.loadValues q :: lines) s = runScript lines (s.setBuf q) :=
  runScript_cons_of_next hwf nofun nofun nofun rfl

/-- A string line loads the ASCII codes of its characters (R77). -/
theorem runScript_loadString_cons {sp : Space} {cs : List Char} {q : SpaceSeq} (hq : stringSeq sp cs = some q)
    (hcs : ∀ c ∈ cs, c.toNat < 128) (s : State) :
    runScript (.loadString sp cs :: lines) s = runScript lines (s.setBuf q) := by
  refine runScript_cons_of_next hwf nofun nofun nofun ?_
  have hsp : sp = .txt ∨ sp = .chr := by cases sp <;> simp_all [stringSeq]
  have hl : (ScriptLine.loadString sp cs).wf = true := by simpa [ScriptLine.wf, hsp] using hcs
  rw [runScript_cons_of_wf hl rfl]
  simp [ScriptLine.actions, hq, runActions, hostAct, HostAction.isCommand]

theorem runScript_comment_cons (text : String) (s : State) :
    runScript (.comment text :: lines) s = runScript lines s :=
  runScript_cons_of_next hwf nofun nofun nofun rfl

end

/-- HIDE is its three command lines, whatever follows (R78). -/
theorem runScript_hide_cons (lines : List ScriptLine) (s : State) :
    runScript (.hide :: lines) s =
      runScript (.command .cenc :: .command .tobits :: .command .embed :: lines) s := rfl

/-- REVEAL is its three command lines, whatever follows (R78). -/
theorem runScript_reveal_cons (lines : List ScriptLine) (s : State) :
    runScript (.reveal :: lines) s =
      runScript (.command .extract :: .command .tobytes :: .command .cdec :: lines) s := rfl

/-! ## The obligations -/

/-- Settles O3: no word outside the table decodes, so `issue` raises `ILLEGAL`. -/
theorem illegalWordChangesOnlyStatus : Obligations.IllegalWordChangesOnlyStatus := by
  intro s w rest hp hw
  calc step s = issue w (s.setPending rest) := step_of_pending hp
    _ = .next ((s.setPending rest).raise .illegal) := issue_of_forall_ne_ok (decode_ne_ok_of_outside hw) _
    _ = .next { s with pending := rest, status := 0x04 } := by
      rw [State.raise, statusWord_illegal]
      rfl

/-- Settles O49, by one lemma for each form of line. -/
theorem scriptsStopAfterTheFirstError : Obligations.ScriptsStopAfterTheFirstError := by
  refine ⟨?_, fun lines s => ⟨runScript_hide_cons lines s, runScript_reveal_cons lines s⟩, ?_,
    fun l lines s t hwf hcmd hhide hreveal h => runScript_cons_of_next hwf hcmd hhide hreveal h,
    fun i w s h => issue_of_decode h s⟩
  · intro i lines s t hwf h
    rw [runScript_command_cons hwf h]
    exact ⟨fun ht => if_pos ht, fun ht => if_neg (by simp [ht])⟩
  · intro lines s hwf
    have hlen (sp : Space) (k : Nat) (h : k ≤ s.len sp) :
        runScript (.setLen sp k :: lines) s = runScript lines (s.truncate sp k) := runScript_setLen_cons hwf h
    have hload (q : SpaceSeq) :
        runScript (.loadValues q :: lines) s = runScript lines (s.setBuf q) := runScript_loadValues_cons hwf q s
    exact ⟨fun v => runScript_setN_cons hwf v s,
      hlen .txt, hlen .chr, hlen .bit, hlen .pix,
      fun _ _ h => runScript_setLen_cons_of_lt hwf h,
      fun xs => hload (.txt xs), fun xs => hload (.chr xs), fun xs => hload (.bit xs), fun xs => hload (.pix xs),
      fun cs hcs => ⟨runScript_loadString_cons hwf (q := .txt (cs.map asciiCode)) rfl hcs s,
        runScript_loadString_cons hwf (q := .chr (cs.map asciiCode)) rfl hcs s⟩,
      fun text => runScript_comment_cons hwf text s⟩

/-- Settles O50, action by action, at the state with the action taken off. -/
theorem hostActionsDoWhatTheInterfaceSays : Obligations.HostActionsDoWhatTheInterfaceSays := by
  intro s a rest hp
  rw [step_of_pending hp]
  refine ⟨?_, ?_, ?_, ?_, ?_⟩
  · rintro v rfl
    rfl
  · rintro q rfl
    refine ⟨_, rfl, by simp, by simp, by simp, by simp, fun sp hsp => ?_⟩
    rw [State.buf_setBuf_of_ne _ _ _ hsp, State.buf_setPending]
  · rintro sp k rfl hk
    have hk' : k ≤ (s.setPending rest).len sp := by simpa using hk
    refine ⟨_, hostAct_writeLen_of_le hk', by simp, by simp, by simp, State.len_truncate _ _ _ hk',
      fun i hi => ?_, fun sp' hsp => ?_⟩
    · rw [State.memRead_truncate_of_lt _ hi, State.memRead_setPending]
    · rw [State.buf_truncate_of_ne _ _ _ _ hsp, State.buf_setPending]
  · rintro sp i rfl hi
    exact ⟨hostAct_readElem_of_lt (by simpa using hi), readElem_of_lt hi⟩
  · rintro (rfl | rfl | rfl | rfl | rfl | rfl | ⟨sp, rfl⟩) <;> rfl

/-- Settles O1: the table's rows compute, and a word that decodes is its command's own. -/
theorem commandWordsDecodeAsTheTableSays : Obligations.CommandWordsDecodeAsTheTableSays :=
  ⟨rfl, rfl, rfl, rfl, rfl, rfl, rfl, rfl, fun _ hw i => decode_ne_ok_of_outside hw i⟩

end Sys2Proof.Machine
end

section
/-! PROOFS, family 40_cyclecipher. What CENC and CDEC leave (spec/40_cyclecipher.md R96, R100). -/

namespace Sys2Proof.Machine

/-! ## The outcomes of the two commands, by the sign of `N` -/

section
variable (b : Build) {s : State}

theorem cencIn_of_neg (h : s.n < 0) : cencIn b s = s.raise .param := by
  simp [cencIn, s.cipherParam_of_neg h]

theorem cdecIn_of_neg (h : s.n < 0) : cdecIn b s = s.raise .param := by
  simp [cdecIn, s.cipherParam_of_neg h]

theorem cencIn_of_eq {n : Nat} (h : s.n = n) :
    cencIn b s = (s.setChr (encodeFrom b n s.txt 0)).complete false := by
  simp [cencIn, s.cipherParam_of_eq n h, cencLoop_out]

end

/-! ## The working result along the loop of CDEC -/

/-- Line 10 of R100 drops the last two elements. -/
theorem take_length_sub_two (w : List Byte) : w.take (w.length - 2) = w.dropLast.dropLast := by
  rw [List.dropLast_eq_take, List.dropLast_eq_take, List.take_take, List.length_take]
  congr 1
  omega

section
variable (b : Build) (n : Nat) (h : Hidden)

/-- The working result `k` bytes later, had the loop not stopped before (R100 lines 5 to 8); `workFrom_startCipher`
ties it to `workAfter`. -/
def workFrom (xs : List Byte) (k : Nat) : List Byte :=
  h.w ++ ((decodedFrom n h.cp xs).take k).filter b.isPrint

@[simp] theorem workFrom_zero (xs : List Byte) : workFrom b n h xs 0 = h.w := by simp [workFrom]

@[simp] theorem workFrom_cons_succ (x : Byte) (xs : List Byte) (k : Nat) :
    workFrom b n h (x :: xs) (k + 1) = workFrom b n (cdecByte b n h x) xs k := by
  simp only [workFrom, decodedFrom_cons, cdecByte_w, cdecByte_cp, List.take_succ_cons, List.append_assoc,
    ← List.filter_append, List.singleton_append]

theorem workFrom_startCipher (chr : List Byte) (k : Nat) :
    workFrom b n h.startCipher chr k = workAfter b n chr k := rfl

/-- CDEC's loop keeps the whole working result, or stops where that first ends in the sentinel and drops its last
two characters (R100 lines 4 to 10). -/
theorem cdecLoop_cases (xs : List Byte) (hw : ¬ EndsInAtAt b h.w) :
    ((cdecLoop b n xs h).2 = false ∧ (cdecLoop b n xs h).1.w = workFrom b n h xs xs.length) ∨
    ((cdecLoop b n xs h).2 = true ∧ ∃ k ≤ xs.length, EndsInAtAt b (workFrom b n h xs k) ∧
      (∀ j < k, ¬ EndsInAtAt b (workFrom b n h xs j)) ∧
      (cdecLoop b n xs h).1.w = (workFrom b n h xs k).dropLast.dropLast) := by
  induction xs generalizing h with
  | nil => exact .inl ⟨rfl, (workFrom_zero b n h []).symm⟩
  | cons x xs ih =>
    rw [cdecLoop]
    split
    case isTrue hs =>
      refine .inr ⟨rfl, 1, by simp, by simpa [endsInSentinel_iff] using hs, by simpa using hw, ?_⟩
      simpa using take_length_sub_two (cdecByte b n h x).w
    case isFalse hs =>
      rw [endsInSentinel_iff] at hs
      obtain ⟨hfound, hkept⟩ | ⟨hfound, k, hk, hend, hfirst, hdropped⟩ := ih (cdecByte b n h x) hs
      · exact .inl ⟨hfound, by simpa using hkept⟩
      · refine .inr ⟨hfound, k + 1, by simpa using hk, by simpa using hend, fun j hj => ?_, by simpa using hdropped⟩
        cases j with
        | zero => simpa using hw
        | succ j => simpa using hfirst j (by omega)

end

/-! ## The reading by prefixes -/

section
variable {b : Build} {n : Nat} {chr : List Byte}

/-- The stop is after the first number of bytes whose working result ends in the sentinel. -/
theorem stopIndex_eq_some_iff {k : Nat} :
    stopIndex b n chr = some k ↔ k ≤ chr.length ∧ EndsInAtAt b (workAfter b n chr k) ∧
      ∀ j < k, ¬ EndsInAtAt b (workAfter b n chr j) := by
  simp only [stopIndex, EndsInAtAt, List.find?_range_eq_some, List.isSuffixOf_iff_suffix, List.mem_range,
    Nat.lt_succ_iff, Bool.not_eq_true', ← Bool.not_eq_true]
  exact and_left_comm

theorem stopIndex_eq_none_iff : stopIndex b n chr = none ↔ ¬ SentinelFound b n chr := by
  simp [stopIndex, SentinelFound, EndsInAtAt]

end

/-- CDEC's loop and the strip after it compute the reading by prefixes (R100 lines 3 to 11). -/
theorem cdecLoop_eq_decodeByPrefix (b : Build) (n : Nat) (chr : List Byte) (h : Hidden) :
    (stripSpecial b (cdecLoop b n chr h.startCipher).1.w, (cdecLoop b n chr h.startCipher).2) =
      decodeByPrefix b n chr := by
  obtain ⟨hfound, hw⟩ | ⟨hfound, k, hk, hend, hfirst, hw⟩ :=
    cdecLoop_cases b n h.startCipher chr (not_endsInAtAt_nil b)
  · have hstop : stopIndex b n chr = none := by
      simp [stopIndex_eq_none_iff, ← cdecLoop_startCipher_found_iff b n chr h, hfound]
    simp [decodeByPrefix, hstop, stripSpecial_eq, hw, hfound, workFrom_startCipher]
  · have hstop : stopIndex b n chr = some k := stopIndex_eq_some_iff.mpr ⟨hk, hend, hfirst⟩
    simp [decodeByPrefix, hstop, stripSpecial_eq, hw, hfound, workFrom_startCipher]

theorem cdecIn_of_eq (b : Build) {s : State} {n : Nat} (h : s.n = n) :
    cdecIn b s =
      (s.setTxt (decodeByPrefix b n s.chr).1).complete (!(decodeByPrefix b n s.chr).2) := by
  simp [cdecIn, s.cipherParam_of_eq n h, ← cdecLoop_eq_decodeByPrefix b n s.chr s.hidden]

/-! ## The obligations -/

/-- Settles O22: `encodeFrom` is what CENC's loop builds, and `complete` writes `STATUS` and the hidden registers. -/
theorem cencEncodesAsR96 : Obligations.CencEncodesAsR96 := by
  refine fun s => ⟨fun hn => ?_, fun n hn => ⟨Config.discardedHidden s.freeDraws, s.freeDraws + 1, ?_⟩⟩
  · rw [exec_eq, commandIn, cencIn_of_neg _ hn, State.raise, statusWord_param]
    rfl
  · rw [exec_eq, commandIn, cencIn_of_eq _ hn, State.complete, statusWord_ok_false]
    rfl

/-- Settles O28: CDEC's loop stops at the first prefix whose working result ends in the sentinel, where there is
one, and `complete` writes `SNF` where there is none. -/
theorem cdecDecodesAsR100 : Obligations.CdecDecodesAsR100 := by
  refine fun s => ⟨fun hn => ?_, fun n hn => ⟨Config.discardedHidden s.freeDraws, s.freeDraws + 1, ?_⟩⟩
  · rw [exec_eq, commandIn, cdecIn_of_neg _ hn, State.raise, statusWord_param]
    rfl
  · rw [exec_eq, commandIn, cdecIn_of_eq _ hn, State.complete]
    cases (decodeByPrefix Config.build n s.chr).2 <;> rfl

end Sys2Proof.Machine
end

section
/-! PROOFS, family 41_bitpacker. What TOBITS and TOBYTES leave (spec/41_bitpacker.md R121, R122, R125). -/

namespace Sys2Proof.Machine

/-! ## The two list functions, element by element -/

/-- Bit `8k + j` of the expansion is bit `7 - j` of character `k` (R121). -/
theorem serialize_getElem? {cs : List Byte} {k : Nat} {c : Byte} (hc : cs[k]? = some c) {j : Nat} (hj : j < 8) :
    (serialize cs)[8 * k + j]? = some (bitOf c (7 - j)) := by
  induction cs generalizing k with
  | nil => simp at hc
  | cons x xs ih =>
    rw [serialize_cons]
    cases k with
    | zero =>
      obtain rfl : x = c := by simpa using hc
      rw [Nat.mul_zero, Nat.zero_add, List.getElem?_append_left (by simpa using hj), charBits_getElem? x j hj]
    | succ k =>
      rw [List.getElem?_append_right (by rw [charBits_length]; omega), charBits_length,
        show 8 * (k + 1) + j - 8 = 8 * k + j by omega]
      exact ih (by simpa using hc)

/-- TOBITS's function undoes TOBYTES's on whole groups. -/
theorem serialize_deserialize {bits : List Bit} (h : bits.length % 8 = 0) :
    serialize (deserialize bits) = bits := by
  induction bits using deserialize.induct with
  | case1 b7 b6 b5 b4 b3 b2 b1 b0 rest ih =>
    have hrest : rest.length % 8 = 0 := by simp only [List.length_cons] at h; omega
    rw [deserialize, serialize_cons, charBits_groupByte, ih hrest]
    rfl
  | case2 bits hshort =>
    obtain rfl | ⟨b7, b6, b5, b4, b3, b2, b1, b0, rest, e, -⟩ := eq_nil_or_first_group bits h
    · rfl
    · exact absurd e (hshort b7 b6 b5 b4 b3 b2 b1 b0 rest)

theorem deserialize_length {bits : List Bit} (h : bits.length % 8 = 0) :
    (deserialize bits).length = bits.length / 8 := by
  have hlen := serialize_length (deserialize bits)
  rw [serialize_deserialize h] at hlen
  omega

/-- A byte is the sum of its bits' weights. -/
theorem toNat_eq_sum_bitOf (c : Byte) :
    c.toNat = ((List.range 8).map fun j => (bitOf c (7 - j)).toNat * 2 ^ (7 - j)).sum := by
  revert c; decide

/-- A byte of the reassembly is the sum of the weights of its group, the group being the byte's expansion (R122). -/
theorem toNat_of_deserialize_getElem? {bits : List Bit} (h : bits.length % 8 = 0) {k : Nat} {v : Byte}
    (hv : (deserialize bits)[k]? = some v) :
    v.toNat = ((List.range 8).map fun j => (bits[8 * k + j]?.getD 0).toNat * 2 ^ (7 - j)).sum := by
  rw [toNat_eq_sum_bitOf]
  congr 1
  refine List.map_congr_left fun j hj => ?_
  have hbit := serialize_getElem? hv (List.mem_range.mp hj)
  rw [serialize_deserialize h] at hbit
  rw [hbit, Option.getD_some]

/-! ## The outcomes of the commands -/

section
variable {s : State}

theorem tobytes_of_mod_ne (h : s.bit.length % 8 ≠ 0) : tobytes s = s.raise .align := if_pos h

theorem tobytes_of_mod_eq (h : s.bit.length % 8 = 0) :
    tobytes s = (s.setChr (deserialize s.bit)).complete false := if_neg (not_not.mpr h)

end

/-- R125's law for TOBITS, in any state. -/
theorem tobits_len_bit (s : State) : (tobits s).len .bit = 8 * (tobits s).len .chr := by
  simp [tobits_eq, serialize_length]

/-- R125's law for an ENCB that completed: its last stage was TOBITS. -/
theorem encbIn_len_bit {b : Build} {s : State} (h : (encbIn b s).errField = 0) :
    (encbIn b s).len .bit = 8 * (encbIn b s).len .chr := by
  obtain ⟨-, e⟩ | ⟨n, -, e⟩ := encbIn_cases b s
  · rw [e, State.raise_errField] at h
    exact absurd h (by decide)
  · rw [e]
    exact tobits_len_bit _

/-! ## The obligations -/

/-- Settles O33: the bits are the expansion of `CHR`, read character by character. -/
theorem tobitsExpandsMostSignificantBitFirst : Obligations.TobitsExpandsMostSignificantBitFirst := by
  refine fun s => ⟨serialize s.chr, Config.discardedHidden s.freeDraws, s.freeDraws + 1, ?_,
    serialize_length s.chr, fun k c hc j hj => serialize_getElem? hc hj⟩
  rw [exec_eq, commandIn, tobits_eq, State.complete, statusWord_ok_false]
  rfl

/-- Settles O34: each byte's expansion is its group of bits, because `serialize` undoes `deserialize`. -/
theorem tobytesReassemblesBigEndian : Obligations.TobytesReassemblesBigEndian := by
  refine fun s => ⟨fun hb => ?_, fun hb => ⟨deserialize s.bit, Config.discardedHidden s.freeDraws,
    s.freeDraws + 1, ?_, deserialize_length hb, fun k hk => ?_⟩⟩
  · rw [exec_eq, commandIn, tobytes_of_mod_ne hb, State.raise, statusWord_align]
    rfl
  · rw [exec_eq, commandIn, tobytes_of_mod_eq hb, State.complete, statusWord_ok_false]
    rfl
  · have hv := List.getElem?_eq_getElem hk
    exact ⟨_, hv, toNat_of_deserialize_getElem? hb hv⟩

/-- Settles O36: TOBITS writes eight bits a character, also as ENCB's last stage; EXTRACT one bit an element. -/
theorem bitLengthLaw : Obligations.BitLengthLaw := by
  simp only [Obligations.BitLengthLaw, exec_eq_next_iff]
  refine ⟨?_, ?_, ?_⟩
  · rintro s _ rfl
    have hlen := tobits_len_bit s
    exact ⟨hlen, Nat.mod_eq_zero_of_dvd ⟨_, hlen⟩⟩
  · rintro s _ rfl herr
    have hlen := encbIn_len_bit herr
    exact ⟨hlen, Nat.mod_eq_zero_of_dvd ⟨_, hlen⟩⟩
  · rintro s _ rfl
    simp [commandIn, extract_eq]

end Sys2Proof.Machine
end

section
/-! PROOFS, family 42_pixelchannel. What EMBED and EXTRACT leave (spec/42_pixelchannel.md R136 to R138). -/

namespace Sys2Proof.Machine

/-! ## The outcomes of EMBED, by the lengths -/

section
variable {s : State}

theorem embed_of_lt (h : s.pix.length < s.bit.length) : embed s = s.raise .capacity := if_pos h

theorem embed_of_le (h : s.bit.length ≤ s.pix.length) :
    embed s = (s.setPix (embedLsbs s.pix s.bit)).complete false := if_neg (Nat.not_lt.mpr h)

end

/-! ## The carrier after EMBED, element by element -/

section
variable {ps : List Byte} {bs : List Bit} {i : Nat} (h : bs.length ≤ ps.length)
include h

/-- Within the payload an element takes the payload's bit (R136 lines 2 to 5). -/
theorem embedLsbs_getElem?_of_some {p : Byte} {x : Bit} (hp : ps[i]? = some p) (hx : bs[i]? = some x) :
    (embedLsbs ps bs)[i]? = some (replaceLsb p x) := by
  simp [embedLsbs_getElem? ps bs i h, hp, hx]

/-- Beyond the payload an element stays. -/
theorem embedLsbs_getElem?_of_none (hx : bs[i]? = none) : (embedLsbs ps bs)[i]? = ps[i]? := by
  simp [embedLsbs_getElem? ps bs i h, hx]

end

/-! ## The obligations -/

/-- Settles O38: within the payload by what bit replace does to one element, beyond it because the element stays. -/
theorem embedReplacesLeastSignificantBits : Obligations.EmbedReplacesLeastSignificantBits := by
  refine fun s => ⟨fun hlt => ?_, fun hle => ⟨embedLsbs s.pix s.bit, Config.discardedHidden s.freeDraws,
    s.freeDraws + 1, ?_, embedLsbs_length _ _ hle, fun i p hp => ?_⟩⟩
  · rw [exec_eq, commandIn, embed_of_lt hlt, State.raise, statusWord_capacity]
    rfl
  · rw [exec_eq, commandIn, embed_of_le hle, State.complete, statusWord_ok_false]
    rfl
  · cases hx : s.bit[i]? with
    | some x =>
      have hi : i < s.bit.length := (List.getElem?_eq_some_iff.mp hx).1
      refine ⟨replaceLsb p x, embedLsbs_getElem?_of_some hle hp hx, replaceLsb_upper p x, ?_,
        fun hge => absurd hi (Nat.not_lt.mpr hge)⟩
      rintro _ ⟨⟩
      exact bitOf_replaceLsb p x
    | none => exact ⟨p, (embedLsbs_getElem?_of_none hle hx).trans hp, rfl, nofun, fun _ => rfl⟩

/-- Settles O41: the bits are the carrier's least-significant bits, element by element. -/
theorem extractReadsTheWholeCarrier : Obligations.ExtractReadsTheWholeCarrier := by
  refine fun s => ⟨s.pix.map lsb, Config.discardedHidden s.freeDraws, s.freeDraws + 1, ?_,
    List.length_map lsb, fun i p hp => ?_⟩
  · rw [exec_eq, commandIn, extract_eq, State.complete, statusWord_ok_false]
    rfl
  · rw [List.getElem?_map, hp, Option.map_some, lsb_eq_bitOf]

/-- Settles O39: a payload of one bit fits a carrier of one element, which bit replace rewrites. -/
theorem embedIsolatesTheLsb : Obligations.EmbedIsolatesTheLsb := by
  intro s v x hv hx
  have hle : s.bit.length ≤ s.pix.length := by simp [hv, hx]
  have hpix : (embed s).pix = [replaceLsb v x] := by
    rw [embed_of_le hle, hv, hx]
    rfl
  exact ⟨embed s, replaceLsb v x, exec_eq .embed s, hpix, replaceLsb_upper v x, bitOf_replaceLsb v x⟩

end Sys2Proof.Machine
end

section
/-! PROOFS, family 43_composite. What ENCB and DECB leave (spec/43_composite.md R151, R152). -/

namespace Sys2Proof.Machine

/-! ## The composites as their stages, by what the first stage needs -/

section
variable (b : Build) {s : State}

theorem encbIn_of_neg (h : s.n < 0) : encbIn b s = s.raise .param := by
  rw [encbIn, cencIn_of_neg b h, thenStage_raise _ _ _ (by decide)]

/-- A CENC that completed is followed by TOBITS (R151). -/
theorem encbIn_of_eq {n : Nat} (h : s.n = n) : encbIn b s = tobits (cencIn b s) := by
  rw [encbIn, cencIn_of_eq b h, thenStage_complete]

theorem decbIn_of_mod_ne (h : s.bit.length % 8 ≠ 0) : decbIn b s = s.raise .align := by
  rw [decbIn, tobytes_of_mod_ne h, thenStage_raise _ _ _ (by decide)]

/-- A TOBYTES that completed is followed by CDEC (R152). -/
theorem decbIn_of_mod_eq (h : s.bit.length % 8 = 0) : decbIn b s = cdecIn b (tobytes s) := by
  rw [decbIn, tobytes_of_mod_eq h, thenStage_complete]

end

/-- Neither outcome of TOBYTES writes `N`, so that CDEC reads the value DECB started with. -/
@[simp] theorem tobytes_n (s : State) : (tobytes s).n = s.n := by
  obtain ⟨-, e⟩ | ⟨-, e⟩ := tobytes_cases s <;> simp [e]

/-! ## The obligations -/

/-- Settles O43: CENC raises for `N < 0` and otherwise completes, so that TOBITS expands its `CHR`. -/
theorem encbRunsCencThenTobits : Obligations.EncbRunsCencThenTobits := by
  refine fun s => ⟨fun hn => ?_, fun n hn => ⟨cencIn Config.build s,
    serialize (encodeFrom Config.build n s.txt 0), Config.discardedHidden (s.freeDraws + 1), s.freeDraws + 2,
    exec_eq .cenc s, ?_, ?_, rfl⟩⟩
  · rw [exec_eq, commandIn, encbIn_of_neg _ hn, State.raise, statusWord_param]
    rfl
  · rw [exec_eq, exec_eq, commandIn, commandIn, encbIn_of_eq _ hn]
  · rw [exec_eq, commandIn, encbIn_of_eq _ hn, cencIn_of_eq _ hn, tobits_eq, State.complete, statusWord_ok_false]
    rfl

/-- Settles O44: TOBYTES raises for a broken group and otherwise completes, and then both outcomes are CDEC's in
the state TOBYTES leaves (`cdecDecodesAsR100`). -/
theorem decbRunsTobytesThenCdec : Obligations.DecbRunsTobytesThenCdec := by
  refine fun s => ⟨fun hb => ?_, fun hb => ?_⟩
  · rw [exec_eq, commandIn, decbIn_of_mod_ne _ hb, State.raise, statusWord_align]
    rfl
  · have hstages : exec .decb s = exec .cdec (tobytes s) := by
      rw [exec_eq, exec_eq, commandIn, commandIn, decbIn_of_mod_eq _ hb]
    obtain ⟨hneg, hnonneg⟩ := cdecDecodesAsR100 (tobytes s)
    simp only [← hstages] at hneg hnonneg
    refine ⟨tobytes s, exec_eq .tobytes s, hstages, fun hn => hneg (by rwa [tobytes_n]), fun hn => ?_⟩
    obtain ⟨h, d, hdecoded⟩ := hnonneg s.n.toNat (by rw [tobytes_n, Int.toNat_of_nonneg hn])
    exact ⟨_, _, h, d, hdecoded, ite_eq_or_eq _ _ _⟩

end Sys2Proof.Machine
end

section
/-! PROOFS, family 60_exceptions. When each error is raised and what raising leaves (spec/60_exceptions.md R167 to
R170, R176). -/

namespace Sys2Proof.Machine

/-! ## What a command that ends with an error leaves -/

/-- `endCode` is the code in `STATUS.ERR` after a command. -/
theorem commandIn_errField_eq_code_iff {b : Build} {i : Instr} {s : State} {e : ErrCode} :
    (commandIn b i s).errField = e.code ↔ endCode i s = e := by
  rw [commandIn_errField, ErrCode.code_injective.eq_iff]

/-- A command that does not end OK has only raised, DECB apart: every other command raises in its first stage,
while DECB's CDEC raises after TOBYTES has written `CHR`. -/
theorem commandIn_of_endCode_ne_ok (b : Build) {i : Instr} {s : State} (hdecb : i ≠ .decb)
    (h : endCode i s ≠ .ok) : commandIn b i s = s.raise (endCode i s) := by
  cases i with
  | tobits | extract => exact absurd rfl h
  | decb => exact absurd rfl hdecb
  | cenc | cdec | encb =>
    have hn : s.n < 0 := by simpa [endCode] using h
    simp [commandIn, endCode, hn, cencIn_of_neg, cdecIn_of_neg, encbIn_of_neg]
  | tobytes =>
    have hb : s.bit.length % 8 ≠ 0 := by simpa [endCode] using h
    simp [commandIn, endCode, hb, tobytes_of_mod_ne]
  | embed =>
    have hl : s.pix.length < s.bit.length := by simpa [endCode] using h
    simp [commandIn, endCode, hl, embed_of_lt]

/-- Raising is precise (R170): the code goes to `STATUS`, with `SNF` and the reserved bits 0, and nothing else is
written. -/
theorem exec_of_endCode_eq {i : Instr} {s : State} {e : ErrCode} (hdecb : i ≠ .decb) (h : endCode i s = e)
    (he : e ≠ .ok) : exec i s = .next { s with status := statusWord e false } := by
  subst h
  rw [exec_eq, commandIn_of_endCode_ne_ok _ hdecb he]
  rfl

/-- A command runs to its end without error `e` where its condition does not hold. -/
theorem exists_exec_errField_ne {i : Instr} {s : State} {e : ErrCode} (h : endCode i s ≠ e) :
    ∃ t, exec i s = .next t ∧ t.errField ≠ e.code :=
  ⟨_, exec_eq i s, fun hcode => h (commandIn_errField_eq_code_iff.mp hcode)⟩

/-! ## The first failing stage of a composite -/

/-- DECB and, after EXTRACT, REVEAL: `ALIGN` before `PARAM` (R176). -/
theorem endCode_decb_code (s : State) : (endCode .decb s).code =
    if s.bit.length % 8 ≠ 0 then 3 else if s.n < 0 then 2 else 0 := by
  rw [ite_not, endCode, apply_ite ErrCode.code, apply_ite ErrCode.code]
  rfl

/-- A HIDE whose CENC completed leaves the encoded text in `CHR`, whether or not the payload fits. -/
theorem hideIn_chr (b : Build) {s : State} {n : Nat} (hn : s.n = n) :
    (hideIn b s).chr = encodeFrom b n s.txt 0 := by
  have hchr : (encbIn b s).chr = encodeFrom b n s.txt 0 := by
    rw [encbIn_of_eq b hn, cencIn_of_eq b hn]
    rfl
  obtain ⟨hneg, -⟩ | ⟨m, -, -, e⟩ | ⟨m, -, -, e⟩ := hideIn_cases b s
  · omega
  · rw [e, State.raise_chr, hchr]
  · rw [e, State.complete_chr, State.setPix_chr, hchr]

/-- HIDE: `PARAM` before `CAPACITY` (R176), with the payload's length read off the `CHR` that CENC wrote. -/
theorem hideIn_errField (b : Build) (s : State) : (hideIn b s).errField =
    if s.n < 0 then 2 else if s.pix.length < 8 * (hideIn b s).chr.length then 1 else 0 := by
  obtain ⟨hn, e⟩ | ⟨n, hn, hl, e⟩ | ⟨n, hn, hl, e⟩ := hideIn_cases b s
  · rw [if_pos hn, e, State.raise_errField]
    rfl
  · rw [if_neg (by omega), hideIn_chr b hn, if_pos hl, e, State.raise_errField]
    rfl
  · rw [if_neg (by omega), hideIn_chr b hn, if_neg (Nat.not_lt.mpr hl), e, State.complete_errField]

/-! ## The obligations -/

/-- Settles O13: `N < 0` is the condition of `PARAM`, and only of the commands that read `N`. -/
theorem paramIsRaisedExactlyOnNegativeN : Obligations.ParamIsRaisedExactlyOnNegativeN := by
  refine ⟨fun i s hi => ?_, fun i s t hi hexec herr => ?_⟩
  · have hreads : readsN i = true := by rcases hi with rfl | rfl <;> rfl
    have hdecb : i ≠ .decb := by rcases hi with rfl | rfl <;> decide
    refine ⟨fun hn => ?_, fun hn => exists_exec_errField_ne (e := .param) fun hparam => ?_⟩
    · have hparam : endCode i s = .param := endCode_eq_param_iff.mpr ⟨hreads, hn, fun h => absurd h hdecb⟩
      simpa using exec_of_endCode_eq hdecb hparam (by decide)
    · obtain ⟨-, hneg, -⟩ := endCode_eq_param_iff.mp hparam
      omega
  · have hreads : readsN i ≠ true := by rcases hi with rfl | rfl | rfl | rfl <;> decide
    rw [← exec_eq_next_iff.mp hexec] at herr
    exact hreads (endCode_eq_param_iff.mp (commandIn_errField_eq_code_iff (e := .param).mp herr)).1

/-- Settles O14: a payload longer than the carrier is the condition of `CAPACITY`. -/
theorem capacityIsRaisedExactlyOnALongPayload : Obligations.CapacityIsRaisedExactlyOnALongPayload := by
  refine fun s => ⟨fun hlt => ?_, fun hle => exists_exec_errField_ne (e := .capacity) fun hcap => ?_⟩
  · simpa using exec_of_endCode_eq (by decide) (endCode_eq_capacity_iff.mpr ⟨rfl, hlt⟩) (by decide)
  · exact absurd (endCode_eq_capacity_iff.mp hcap).2 (Nat.not_lt.mpr hle)

/-- Settles O15: a partial group is the condition of `ALIGN`. -/
theorem alignIsRaisedExactlyOnAPartialGroup : Obligations.AlignIsRaisedExactlyOnAPartialGroup := by
  refine fun s => ⟨fun hb => ?_, fun hb => exists_exec_errField_ne (e := .align) fun halign => ?_⟩
  · simpa using exec_of_endCode_eq (by decide) (endCode_eq_align_iff.mpr ⟨.inl rfl, hb⟩) (by decide)
  · exact (endCode_eq_align_iff.mp halign).2 hb

/-- Settles O16: a primitive command that ends with an error has only raised, and `ILLEGAL` is no command's code. -/
theorem fatalErrorsArePrecise : Obligations.FatalErrorsArePrecise := by
  intro i s t _ hdecb hexec herr
  obtain rfl := exec_eq_next_iff.mp hexec
  have hok : endCode i s ≠ .ok := fun h => herr (commandIn_errField_eq_code_iff (e := .ok).mpr h)
  rw [commandIn_of_endCode_ne_ok _ hdecb hok]
  refine ⟨rfl, ?_⟩
  rw [State.raise_status]
  cases hcode : endCode i s with
  | ok => exact absurd hcode hok
  | illegal => exact absurd hcode (endCode_ne_illegal i s)
  | capacity => exact .inl statusWord_capacity
  | param => exact .inr (.inl statusWord_param)
  | align => exact .inr (.inr statusWord_align)

/-- Settles O17: a command ends with its `endCode`, HIDE with that of its first stage that raises, and REVEAL as
DECB does on the bits of the carrier. -/
theorem firstFailingStageReports : Obligations.FirstFailingStageReports := by
  simp only [Obligations.FirstFailingStageReports, exec_eq_next_iff]
  refine ⟨?_, ?_, ?_, ?_, ?_, ?_, hideIn_errField Config.build, fun s => ?_, ?_⟩
  · intro w s v hw
    rw [issue_of_forall_ne_ok hw, State.raise, statusWord_illegal]
    rfl
  · rintro s _ (rfl | rfl) <;> exact commandIn_errField _ _ s
  · rintro s _ (rfl | rfl | rfl) <;> exact (commandIn_errField _ _ s).trans (apply_ite ErrCode.code _ _ _)
  · rintro s _ rfl
    rw [ite_not]
    exact (commandIn_errField _ _ s).trans (apply_ite ErrCode.code _ _ _)
  · rintro s _ rfl
    exact (commandIn_errField _ _ s).trans (apply_ite ErrCode.code _ _ _)
  · rintro s _ rfl
    rw [commandIn_errField, endCode_decb_code]
  · have hlen : (extract s).bit.length = s.pix.length := List.length_map lsb
    rw [revealIn_errField, endCode_decb_code, hlen]
    rfl
  · rintro i s _ rfl hsnf
    exact (commandIn_snfField hsnf).2

end Sys2Proof.Machine
end

section
/-! PROOFS, family other. The decoder, steps and the host port (spec/10_state.md R28, R30, R38, spec/30_encoding.md
R70 to R73). -/

namespace Sys2Proof.Machine

/-! ## `STATUS` along a step -/

/-- `complete` and `raise` write legal values: the flag comes with `ERR = OK` only (R27). -/
theorem statusWord_mem_legalStatuses {e : ErrCode} {f : Bool} (h : f = true → e = .ok) :
    statusWord e f ∈ legalStatuses := by
  cases f with
  | false => cases e <;> decide
  | true => rw [h rfl]; decide

theorem commandIn_statusLegal (b : Build) (i : Instr) (s : State) : (commandIn b i s).StatusLegal := by
  obtain ⟨f, hstatus, hf⟩ := commandIn_status b i s
  rw [State.StatusLegal, hstatus]
  exact statusWord_mem_legalStatuses fun h => (hf h).2

/-- Every word the host writes leaves a legal `STATUS`, whatever was there before. -/
theorem issue_statusLegal {w : Byte} {s t : State} (h : issue w s = .next t) : t.StatusLegal := by
  obtain ⟨i, -, rfl⟩ | ⟨-, rfl⟩ := issue_cases h
  · exact commandIn_statusLegal Config.build i s
  · exact statusWord_mem_legalStatuses (e := .illegal) nofun

/-- The host's actions that count as commands are the writes of a word to `CMD`, by name or by number. -/
theorem exists_issue_of_isCommand {a : HostAction} {s t : State} (ha : a.isCommand = true)
    (h : hostAct a s = .next t) : ∃ w, issue w s = .next t := by
  cases a with
  | writeCmd w => exact ⟨w, h⟩
  | writeReg num v =>
    have hnum : num = 0 := by simpa [HostAction.isCommand] using ha
    obtain ⟨-, w, -, hw⟩ | ⟨h2, -⟩ | ⟨sp, k, hlen, -⟩ := writeReg_cases h
    · exact ⟨w, hw⟩
    · omega
    · rw [hnum] at hlen; cases hlen
  | writeN | writeLen | load | readReg | readBuf | readElem | writeStatus | reset => cases ha

theorem hostAct_statusLegal {a : HostAction} {s t : State} (hs : s.StatusLegal) (h : hostAct a s = .next t) :
    t.StatusLegal := by
  cases ha : a.isCommand with
  | true =>
    obtain ⟨w, hw⟩ := exists_issue_of_isCommand ha h
    exact issue_statusLegal hw
  | false =>
    by_cases hr : a = .reset
    · subst hr
      cases h
      exact statusWord_mem_legalStatuses (e := .ok) (f := false) nofun
    · rw [State.StatusLegal, hostAct_status ha hr h]
      exact hs

/-! ## Which accesses by number are refused -/

/-- The numbers 7 and above name no register (R30). -/
theorem regOfNumber_eq_none_iff {num : Nat} : regOfNumber num = none ↔ 7 ≤ num := by
  match num with
  | 0 | 1 | 2 | 3 | 4 | 5 | 6 | k + 7 => simp [regOfNumber]

theorem regOfNumber_eq_cmd_iff {num : Nat} : regOfNumber num = some .cmd ↔ num = 0 := by
  match num with
  | 0 | 1 | 2 | 3 | 4 | 5 | 6 | k + 7 => simp [regOfNumber]

theorem regOfNumber_eq_status_iff {num : Nat} : regOfNumber num = some .status ↔ num = 1 := by
  match num with
  | 0 | 1 | 2 | 3 | 4 | 5 | 6 | k + 7 => simp [regOfNumber]

/-- The numbers 3 to 6 name the length registers. -/
theorem exists_regOfNumber_eq_len_iff {num : Nat} :
    (∃ sp, regOfNumber num = some (.len sp)) ↔ 3 ≤ num ∧ num ≤ 6 := by
  match num with
  | 0 | 1 | 2 | 3 | 4 | 5 | 6 | k + 7 => simp [regOfNumber]

section
variable {num : Nat} {v : Int} {s : State}

theorem writeReg_of_seven_le (h : 7 ≤ num) : writeReg num v s = .refused .noSuchRegister := by
  simp [writeReg, regOfNumber_eq_none_iff.mpr h]

theorem readReg_of_seven_le (h : 7 ≤ num) : readReg num s = .error .noSuchRegister := by
  simp [readReg, regOfNumber_eq_none_iff.mpr h]

/-- `CMD` takes the values 0 to 255 (R28). -/
theorem writeReg_zero_of_outside (h : v < 0 ∨ 256 ≤ v) : writeReg 0 v s = .refused .valueNotOfRegister :=
  if_neg (by omega)

theorem writeReg_len_of_neg (h3 : 3 ≤ num) (h6 : num ≤ 6) (h : v < 0) :
    writeReg num v s = .refused .valueNotOfRegister := by
  obtain ⟨sp, hsp⟩ := exists_regOfNumber_eq_len_iff.mpr ⟨h3, h6⟩
  simp [writeReg, hsp, h.not_ge]

/-- A natural number written to a length register by number is that register's write by name (R30). -/
theorem writeReg_len_natCast {sp : Space} (h : regOfNumber num = some (.len sp)) (k : Nat) :
    writeReg num k s = writeLen sp k s := by
  simp [writeReg, h]

theorem readElem_of_len_le {sp : Space} {i : Nat} (h : s.len sp ≤ i) :
    readElem sp i s = .error .indexBeyondLength := by
  have hnone : s.memRead sp i = none := by
    rw [← Option.not_isSome_iff_eq_none, s.memRead_isSome]
    exact h.not_gt
  simp [readElem, hnone]

theorem hostAct_readElem_of_len_le {sp : Space} {i : Nat} (h : s.len sp ≤ i) :
    hostAct (.readElem sp i) s = .refused .indexBeyondLength := by
  simp [hostAct, afterRead, readElem_of_len_le h]

/-- Every word is run: a command answers a next state, and an illegal word does as well (R73, R178). -/
theorem exists_issue_eq_next (w : Byte) (s : State) : ∃ t, issue w s = .next t := by
  cases hd : decode w with
  | ok i => exact ⟨_, (issue_of_decode hd s).trans (exec_eq i s)⟩
  | error e => exact ⟨_, issue_of_illegal hd s⟩

end

/-- A write of a length by name lowers it or is refused (R38, U4). -/
theorem writeLen_next_or_refused (sp : Space) (k : Nat) (s : State) :
    (∃ t, writeLen sp k s = .next t) ∨ (s.len sp < k ∧ writeLen sp k s = .refused .lengthRaised) := by
  by_cases hk : k ≤ s.len sp
  · exact .inl ⟨_, hostAct_writeLen_of_le hk⟩
  · exact .inr ⟨by omega, hostAct_writeLen_of_lt (by omega)⟩

/-- A read by number answers, but for `CMD` and the numbers that name no register (U6, R30). -/
theorem readReg_ok_or_error (num : Nat) (s : State) :
    (∃ v, readReg num s = .ok v) ∨ (num = 0 ∧ readReg num s = .error .cmdRead) ∨
    (7 ≤ num ∧ readReg num s = .error .noSuchRegister) := by
  cases hr : regOfNumber num with
  | none =>
    rw [regOfNumber_eq_none_iff] at hr
    exact .inr (.inr ⟨hr, readReg_of_seven_le hr⟩)
  | some r =>
    cases r with
    | cmd => exact .inr (.inl ⟨regOfNumber_eq_cmd_iff.mp hr, by simp [readReg, hr]⟩)
    | status | n | len sp => exact .inl ⟨_, by simp [readReg, hr]; rfl⟩

/-- What a write by number can lead to, the refusals included (R30). -/
theorem writeReg_next_or_refused (num : Nat) (v : Int) (s : State) :
    (∃ t, writeReg num v s = .next t) ∨
    (∃ sp, ∃ k : Nat, v = k ∧ regOfNumber num = some (.len sp) ∧ s.len sp < k ∧
      writeReg num v s = .refused .lengthRaised) ∨
    (7 ≤ num ∧ writeReg num v s = .refused .noSuchRegister) ∨
    (num = 1 ∧ writeReg num v s = .refused .statusWrite) ∨
    (num ≤ 6 ∧ writeReg num v s = .refused .valueNotOfRegister ∧
      (num = 0 ∧ (v < 0 ∨ 256 ≤ v) ∨ 3 ≤ num ∧ v < 0)) := by
  cases hr : regOfNumber num with
  | none =>
    rw [regOfNumber_eq_none_iff] at hr
    exact .inr (.inr (.inl ⟨hr, writeReg_of_seven_le hr⟩))
  | some r =>
    cases r with
    | cmd =>
      obtain rfl := regOfNumber_eq_cmd_iff.mp hr
      by_cases hv : 0 ≤ v ∧ v < 256
      · obtain ⟨t, ht⟩ := exists_issue_eq_next (BitVec.ofInt 8 v) s
        exact .inl ⟨t, (if_pos hv).trans ht⟩
      · have hout : v < 0 ∨ 256 ≤ v := by omega
        exact .inr (.inr (.inr (.inr ⟨by omega, writeReg_zero_of_outside hout, .inl ⟨rfl, hout⟩⟩)))
    | status =>
      exact .inr (.inr (.inr (.inl ⟨regOfNumber_eq_status_iff.mp hr, by simp [writeReg, hr]⟩)))
    | n => exact .inl ⟨_, by simp [writeReg, hr]; rfl⟩
    | len sp =>
      obtain ⟨h3, h6⟩ := exists_regOfNumber_eq_len_iff.mp ⟨sp, hr⟩
      by_cases hv : v < 0
      · exact .inr (.inr (.inr (.inr ⟨h6, writeReg_len_of_neg h3 h6 hv, .inr ⟨h3, hv⟩⟩)))
      · obtain ⟨k, rfl⟩ := Int.eq_ofNat_of_zero_le (not_lt.mp hv)
        rw [writeReg_len_natCast hr]
        obtain hnext | ⟨hlen, hrefused⟩ := writeLen_next_or_refused sp k s
        · exact .inl hnext
        · exact .inr (.inl ⟨sp, k, rfl, rfl, hlen, hrefused⟩)

/-! ## The obligations -/

/-- Settles O8: a command or an illegal word writes a legal value, reset writes 0x00, and every other action leaves
`STATUS` as it was. -/
theorem everyStepKeepsStatusLegal : Obligations.EveryStepKeepsStatusLegal := by
  intro s t hs h
  obtain ⟨-, rfl⟩ | ⟨a, rest, -, ha⟩ := step_cases h
  · exact hs
  · have hs' : (s.setPending rest).StatusLegal := hs
    exact hostAct_statusLegal hs' ha

/-- Settles O52: the three accesses that can be refused at several values (lengths, reads and writes by number) by
their own case analysis, and every other action by what it does. -/
theorem onlyOutsideActionsAreRefused : Obligations.OnlyOutsideActionsAreRefused := by
  refine ⟨fun s => ?_, fun s a rest hp => ?_⟩
  · cases hp : s.pending with
    | nil => exact .inl ⟨s, step_of_idle hp⟩
    | cons a rest =>
      rw [step_of_pending hp]
      simp only [← s.len_setPending rest]
      generalize s.setPending rest = u
      cases a with
      | writeCmd w => exact .inl (exists_issue_eq_next w u)
      | writeN | load | readBuf | reset => exact .inl ⟨_, rfl⟩
      | writeLen sp k =>
        obtain hnext | ⟨hlen, hrefused⟩ := writeLen_next_or_refused sp k u
        · exact .inl hnext
        · exact .inr ⟨_, rest, rfl, .inl ⟨sp, k, rfl, hlen, hrefused⟩⟩
      | writeReg num v =>
        obtain hnext | ⟨sp, k, rfl, hr, hlen, hrefused⟩ | ⟨hnum, hrefused⟩ | ⟨rfl, hrefused⟩ |
          ⟨hnum, hrefused, hv⟩ := writeReg_next_or_refused num v u
        · exact .inl hnext
        · exact .inr ⟨_, rest, rfl, .inr (.inl ⟨num, sp, k, rfl, hr, hlen, hrefused⟩)⟩
        · exact .inr ⟨_, rest, rfl, .inr (.inr (.inr (.inr (.inl ⟨num, hnum, .inr ⟨v, rfl⟩, hrefused⟩))))⟩
        · exact .inr ⟨_, rest, rfl, .inr (.inr (.inr (.inr (.inr (.inl ⟨.inr ⟨v, rfl⟩, hrefused⟩)))))⟩
        · exact .inr ⟨_, rest, rfl, .inr (.inr (.inr (.inr (.inr (.inr ⟨num, v, rfl, hnum, hrefused, hv⟩)))))⟩
      | readReg num =>
        obtain ⟨v, hok⟩ | ⟨rfl, -⟩ | ⟨hnum, herr⟩ := readReg_ok_or_error num u
        · exact .inl ⟨u, by simp [hostAct, afterRead, hok]⟩
        · exact .inr ⟨_, rest, rfl, .inr (.inr (.inr (.inl ⟨rfl, rfl⟩)))⟩
        · exact .inr ⟨_, rest, rfl, .inr (.inr (.inr (.inr (.inl ⟨num, hnum, .inl rfl,
            by simp [hostAct, afterRead, herr]⟩))))⟩
      | readElem sp i =>
        by_cases hi : i < u.len sp
        · exact .inl ⟨u, hostAct_readElem_of_lt hi⟩
        · have hlen : u.len sp ≤ i := by omega
          exact .inr ⟨_, rest, rfl, .inr (.inr (.inl ⟨sp, i, rfl, hlen, hostAct_readElem_of_len_le hlen⟩))⟩
      | writeStatus v =>
        exact .inr ⟨_, rest, rfl, .inr (.inr (.inr (.inr (.inr (.inl ⟨.inl ⟨v, rfl⟩, rfl⟩)))))⟩
  · rw [step_of_pending hp]
    simp only [← s.len_setPending rest]
    generalize s.setPending rest = u
    refine ⟨?_, ?_, ?_, ?_, ?_, ?_, ?_, ?_, ?_, ?_⟩
    · rintro sp k rfl hk
      exact hostAct_writeLen_of_lt hk
    · rintro num sp k rfl hr hk
      exact (writeReg_len_natCast hr k).trans (hostAct_writeLen_of_lt hk)
    · rintro sp i rfl hi
      exact hostAct_readElem_of_len_le hi
    · rintro rfl
      rfl
    · rintro num hnum rfl
      simp [hostAct, afterRead, readReg_of_seven_le hnum]
    · rintro num v hnum rfl
      exact writeReg_of_seven_le hnum
    · rintro v rfl
      rfl
    · rintro v rfl
      rfl
    · rintro v hv rfl
      exact writeReg_zero_of_outside hv
    · rintro num v h3 h6 hv rfl
      exact writeReg_len_of_neg h3 h6 hv

/-- Settles O2: a command's own word decodes to it, and no other word does. -/
theorem decodeAndEncodeAgree : Obligations.DecodeAndEncodeAgree :=
  fun _ i => ⟨eq_encode_of_decode, fun h => h ▸ decode_encode i⟩

/-- Settles O4: the word placed by `withFetchWord` is the command's own, which decodes to it. -/
theorem stepRunsTheDecodedCommand : Obligations.StepRunsTheDecodedCommand := by
  refine ⟨fun s w i rest hp hd => (step_of_pending hp).trans (issue_of_decode hd _), fun s i => ?_⟩
  have hword : BitVec.ofNat 8 ((encode i).toNat % 2 ^ 8) = encode i := by
    rw [Nat.mod_eq_of_lt (encode i).isLt, BitVec.ofNat_toNat, BitVec.setWidth_eq]
  calc step (s.withFetchWord 8 (encode i).toNat)
      = issue (BitVec.ofNat 8 ((encode i).toNat % 2 ^ 8)) s := rfl
    _ = exec i s := by rw [hword, issue_of_decode (decode_encode i)]

/-- Settles O5: a step takes the first action of the queue, and an empty queue has none. -/
theorem idleStepChangesNothing : Obligations.IdleStepChangesNothing := fun _ h => step_of_idle h

/-- Settles O7: `resetBlock` takes every field of the block from `State.reset` and keeps the queue. -/
theorem resetActionRestoresTheTable : Obligations.ResetActionRestoresTheTable :=
  fun s rest hp => ⟨resetBlock (s.setPending rest), step_of_pending hp, rfl, fun sp => by cases sp <;> rfl, rfl⟩

/-- Settles O9: 0x00 is the word of `OK` without the flag. -/
theorem resetStatusIsLegal : Obligations.ResetStatusIsLegal :=
  statusWord_mem_legalStatuses (e := .ok) (f := false) nofun

/-- Settles O51: the numbers of R30's table compute, and the accesses outside it are refused. -/
theorem registerNumbersNameTheTable : Obligations.RegisterNumbersNameTheTable := by
  refine ⟨fun s => ⟨rfl, rfl, rfl, rfl, rfl, rfl, rfl, fun num h => readReg_of_seven_le h⟩, fun s => ⟨fun w => ?_,
    fun v h => writeReg_zero_of_outside h, fun v => rfl, fun v => rfl, fun k => ?_,
    fun num v h3 h6 h => writeReg_len_of_neg h3 h6 h, fun num v h => writeReg_of_seven_le h⟩⟩
  · exact writeReg_cmd w s
  · have hlen {num : Nat} {sp : Space} (hr : regOfNumber num = some (.len sp)) :
        hostAct (.writeReg num k) s = hostAct (.writeLen sp k) s := writeReg_len_natCast hr k
    exact ⟨hlen rfl, hlen rfl, hlen rfl, hlen rfl⟩

end Sys2Proof.Machine
end

section
/-! PROOFS, family other. What every command reads and writes (spec/20_memory.md R51, spec/10_state.md R23). -/

namespace Sys2Proof.Machine

/-! ## What a command writes -/

/-- From `s` to `t` no space outside `sps` is written, and neither `N`, the queue nor `PIX_LEN` changes. -/
def WritesOnly (sps : List Space) (s t : State) : Prop :=
  t.n = s.n ∧ t.pending = s.pending ∧ t.len .pix = s.len .pix ∧ ∀ sp, sp ∉ sps → t.buf sp = s.buf sp

namespace WritesOnly

variable {sps sps' : List Space} {s t u : State}

theorem trans (h : WritesOnly sps s t) (h' : WritesOnly sps t u) : WritesOnly sps s u := by
  obtain ⟨hn, hq, hl, hb⟩ := h
  obtain ⟨hn', hq', hl', hb'⟩ := h'
  exact ⟨hn'.trans hn, hq'.trans hq, hl'.trans hl, fun sp hsp => (hb' sp hsp).trans (hb sp hsp)⟩

theorem n_eq (h : WritesOnly sps s t) : t.n = s.n := h.1

theorem buf_eq (h : WritesOnly sps s t) {sp : Space} (hsp : sp ∉ sps) : t.buf sp = s.buf sp := h.2.2.2 sp hsp

theorem mono (h : WritesOnly sps s t) (hsub : sps ⊆ sps') : WritesOnly sps' s t := by
  obtain ⟨hn, hq, hl, hb⟩ := h
  exact ⟨hn, hq, hl, fun sp hsp => hb sp fun hmem => hsp (hsub hmem)⟩

/-- Raising writes no space. -/
theorem raise (sps : List Space) (s : State) (e : ErrCode) : WritesOnly sps s (s.raise e) :=
  ⟨rfl, rfl, rfl, fun sp _ => by cases sp <;> rfl⟩

/-- Completing writes no space beside those the command wrote. -/
theorem complete (h : WritesOnly sps s t) (f : Bool) : WritesOnly sps s (t.complete f) :=
  h.trans ⟨rfl, rfl, rfl, fun sp _ => by cases sp <;> rfl⟩

/-- A command that sets one space writes that space, and `PIX` at its old length only. -/
theorem setBuf (s : State) (q : SpaceSeq) (hpix : (s.setBuf q).len .pix = s.len .pix) :
    WritesOnly [q.space] s (s.setBuf q) :=
  ⟨s.setBuf_n q, s.setBuf_pending q, hpix, fun sp hsp => s.buf_setBuf_of_ne q sp (by simpa using hsp)⟩

theorem setTxt (s : State) (xs : List Byte) : WritesOnly [.txt] s (s.setTxt xs) := setBuf s (.txt xs) rfl

theorem setChr (s : State) (xs : List Byte) : WritesOnly [.chr] s (s.setChr xs) := setBuf s (.chr xs) rfl

theorem setBit (s : State) (xs : List Bit) : WritesOnly [.bit] s (s.setBit xs) := setBuf s (.bit xs) rfl

/-- A composite writes what its stages write. -/
theorem thenStage (f : State → State) (h : WritesOnly sps s t) (hf : WritesOnly sps t (f t)) :
    WritesOnly sps s (thenStage f t) := by
  unfold Machine.thenStage
  split
  · exact h.trans hf
  · exact h

end WritesOnly

section
variable (b : Build) (s : State)

theorem cencIn_writesOnly : WritesOnly [.chr] s (cencIn b s) := by
  obtain ⟨-, e⟩ | ⟨n, -, e⟩ := cencIn_cases b s <;> rw [e]
  · exact .raise _ s _
  · exact (WritesOnly.setChr s _).complete false

theorem cdecIn_writesOnly : WritesOnly [.txt] s (cdecIn b s) := by
  obtain ⟨-, e⟩ | ⟨n, -, e⟩ := cdecIn_cases b s <;> rw [e]
  · exact .raise _ s _
  · exact (WritesOnly.setTxt s _).complete _

theorem tobits_writesOnly : WritesOnly [.bit] s (tobits s) :=
  (WritesOnly.setBit s _).complete false

theorem tobytes_writesOnly : WritesOnly [.chr] s (tobytes s) := by
  obtain ⟨-, e⟩ | ⟨-, e⟩ := tobytes_cases s <;> rw [e]
  · exact .raise _ s _
  · exact (WritesOnly.setChr s _).complete false

theorem embed_writesOnly : WritesOnly [.pix] s (embed s) := by
  obtain ⟨-, e⟩ | ⟨hl, e⟩ := embed_cases s <;> rw [e]
  · exact .raise _ s _
  · exact (WritesOnly.setBuf s (.pix _) (embedLsbs_length s.pix s.bit hl)).complete false

theorem extract_writesOnly : WritesOnly [.bit] s (extract s) :=
  (WritesOnly.setBit s _).complete false

/-- Every command writes the spaces its row of R51 marks, the composites those of both their stages. -/
theorem commandIn_writesOnly (i : Instr) : WritesOnly (writtenSpaces i) s (commandIn b i s) := by
  cases i with
  | cenc => exact cencIn_writesOnly b s
  | cdec => exact cdecIn_writesOnly b s
  | tobits => exact tobits_writesOnly s
  | tobytes => exact tobytes_writesOnly s
  | embed => exact embed_writesOnly s
  | extract => exact extract_writesOnly s
  | encb => exact ((cencIn_writesOnly b s).mono (by decide)).thenStage _ ((tobits_writesOnly _).mono (by decide))
  | decb => exact ((tobytes_writesOnly s).mono (by decide)).thenStage _ ((cdecIn_writesOnly b _).mono (by decide))

end

/-! ## What a command reads -/

/-- What two runs of a command that writes `sps` leave: the same `STATUS`, and in each of these spaces the same
contents or, in both runs, the old ones. -/
def SameResults (sps : List Space) (s₁ s₂ t₁ t₂ : State) : Prop :=
  t₁.status = t₂.status ∧
  ∀ sp ∈ sps, t₁.buf sp = t₂.buf sp ∨ (t₁.buf sp = s₁.buf sp ∧ t₂.buf sp = s₂.buf sp)

/-- Two runs that raise the same error write nothing. -/
theorem sameResults_raise (sps : List Space) (s₁ s₂ : State) (e : ErrCode) :
    SameResults sps s₁ s₂ (s₁.raise e) (s₂.raise e) :=
  ⟨rfl, fun sp _ => .inr (by cases sp <;> exact ⟨rfl, rfl⟩)⟩

/-- A second stage that reads what the first has written, and writes another space, adds its own results. -/
theorem SameResults.andThen {sp sp' : Space} {s₁ s₂ t₁ t₂ u₁ u₂ : State} (hne : sp ≠ sp')
    (hsame : t₁.buf sp = t₂.buf sp) (hs₁ : WritesOnly [sp] s₁ t₁) (hs₂ : WritesOnly [sp] s₂ t₂)
    (ht₁ : WritesOnly [sp'] t₁ u₁) (ht₂ : WritesOnly [sp'] t₂ u₂) (h : SameResults [sp'] t₁ t₂ u₁ u₂) :
    SameResults [sp, sp'] s₁ s₂ u₁ u₂ := by
  obtain ⟨hstatus, hbuf⟩ := h
  refine ⟨hstatus, fun x hx => ?_⟩
  obtain rfl | rfl : x = sp ∨ x = sp' := by simpa using hx
  · exact .inl (by rw [ht₁.buf_eq (by simpa using hne), ht₂.buf_eq (by simpa using hne), hsame])
  · rw [← hs₁.buf_eq (by simpa using hne.symm), ← hs₂.buf_eq (by simpa using hne.symm)]
    exact hbuf x (by simp)

/-- `N` is negative or a period parameter. -/
theorem State.n_neg_or_eq_natCast (s : State) : s.n < 0 ∨ ∃ n : Nat, s.n = n :=
  (lt_or_ge s.n 0).imp_right Int.eq_ofNat_of_zero_le

section
variable (b : Build) {s₁ s₂ : State}

theorem cencIn_sameResults (hn : s₁.n = s₂.n) (htxt : s₁.txt = s₂.txt) :
    SameResults [.chr] s₁ s₂ (cencIn b s₁) (cencIn b s₂) := by
  obtain hneg | ⟨n, e⟩ := s₁.n_neg_or_eq_natCast
  · rw [cencIn_of_neg b hneg, cencIn_of_neg b (hn ▸ hneg)]
    exact sameResults_raise ..
  · rw [cencIn_of_eq b e, cencIn_of_eq b (hn ▸ e), htxt]
    exact ⟨rfl, by simp⟩

theorem cdecIn_sameResults (hn : s₁.n = s₂.n) (hchr : s₁.chr = s₂.chr) :
    SameResults [.txt] s₁ s₂ (cdecIn b s₁) (cdecIn b s₂) := by
  obtain hneg | ⟨n, e⟩ := s₁.n_neg_or_eq_natCast
  · rw [cdecIn_of_neg b hneg, cdecIn_of_neg b (hn ▸ hneg)]
    exact sameResults_raise ..
  · rw [cdecIn_of_eq b e, cdecIn_of_eq b (hn ▸ e), hchr]
    exact ⟨rfl, by simp⟩

theorem tobits_sameResults (hchr : s₁.chr = s₂.chr) : SameResults [.bit] s₁ s₂ (tobits s₁) (tobits s₂) := by
  rw [tobits_eq, tobits_eq, hchr]
  exact ⟨rfl, by simp⟩

theorem tobytes_sameResults (hbit : s₁.bit = s₂.bit) : SameResults [.chr] s₁ s₂ (tobytes s₁) (tobytes s₂) := by
  by_cases hb : s₁.bit.length % 8 = 0
  · rw [tobytes_of_mod_eq hb, tobytes_of_mod_eq (hbit ▸ hb), hbit]
    exact ⟨rfl, by simp⟩
  · rw [tobytes_of_mod_ne hb, tobytes_of_mod_ne (hbit ▸ hb)]
    exact sameResults_raise ..

theorem embed_sameResults (hbit : s₁.bit = s₂.bit) (hpix : s₁.pix = s₂.pix) :
    SameResults [.pix] s₁ s₂ (embed s₁) (embed s₂) := by
  obtain hl | hl := lt_or_ge s₁.pix.length s₁.bit.length
  · rw [embed_of_lt hl, embed_of_lt (by rwa [← hbit, ← hpix])]
    exact sameResults_raise ..
  · rw [embed_of_le hl, embed_of_le (by rwa [← hbit, ← hpix]), hbit, hpix]
    exact ⟨rfl, by simp⟩

theorem extract_sameResults (hpix : s₁.pix = s₂.pix) : SameResults [.bit] s₁ s₂ (extract s₁) (extract s₂) := by
  rw [extract_eq, extract_eq, hpix]
  exact ⟨rfl, by simp⟩

theorem encbIn_sameResults (hn : s₁.n = s₂.n) (htxt : s₁.txt = s₂.txt) :
    SameResults [.chr, .bit] s₁ s₂ (encbIn b s₁) (encbIn b s₂) := by
  obtain hneg | ⟨n, e⟩ := s₁.n_neg_or_eq_natCast
  · rw [encbIn_of_neg b hneg, encbIn_of_neg b (hn ▸ hneg)]
    exact sameResults_raise ..
  · have hchr : (cencIn b s₁).chr = (cencIn b s₂).chr := by
      rw [cencIn_of_eq b e, cencIn_of_eq b (hn ▸ e), htxt]
      rfl
    rw [encbIn_of_eq b e, encbIn_of_eq b (hn ▸ e)]
    exact (tobits_sameResults hchr).andThen (by decide) (by simp [hchr]) (cencIn_writesOnly b s₁)
      (cencIn_writesOnly b s₂) (tobits_writesOnly _) (tobits_writesOnly _)

theorem decbIn_sameResults (hn : s₁.n = s₂.n) (hbit : s₁.bit = s₂.bit) :
    SameResults [.chr, .txt] s₁ s₂ (decbIn b s₁) (decbIn b s₂) := by
  by_cases hb : s₁.bit.length % 8 = 0
  · have hchr : (tobytes s₁).chr = (tobytes s₂).chr := by
      rw [tobytes_of_mod_eq hb, tobytes_of_mod_eq (hbit ▸ hb), hbit]
      rfl
    rw [decbIn_of_mod_eq b hb, decbIn_of_mod_eq b (hbit ▸ hb)]
    exact (cdecIn_sameResults b (by rw [tobytes_n, tobytes_n, hn]) hchr).andThen (by decide) (by simp [hchr])
      (tobytes_writesOnly s₁) (tobytes_writesOnly s₂) (cdecIn_writesOnly b _) (cdecIn_writesOnly b _)
  · rw [decbIn_of_mod_ne b hb, decbIn_of_mod_ne b (hbit ▸ hb)]
    exact sameResults_raise ..

theorem commandIn_sameResults {i : Instr} (h : SameInputs i s₁ s₂) :
    SameResults (writtenSpaces i) s₁ s₂ (commandIn b i s₁) (commandIn b i s₂) := by
  obtain ⟨hn, hbuf⟩ := h
  cases i with
  | cenc => exact cencIn_sameResults b (hn rfl) (by simpa [readSpaces] using hbuf)
  | cdec => exact cdecIn_sameResults b (hn rfl) (by simpa [readSpaces] using hbuf)
  | tobits => exact tobits_sameResults (by simpa [readSpaces] using hbuf)
  | tobytes => exact tobytes_sameResults (by simpa [readSpaces] using hbuf)
  | embed =>
    obtain ⟨hbit, hpix⟩ : s₁.bit = s₂.bit ∧ s₁.pix = s₂.pix := by simpa [readSpaces] using hbuf
    exact embed_sameResults hbit hpix
  | extract => exact extract_sameResults (by simpa [readSpaces] using hbuf)
  | encb => exact encbIn_sameResults b (hn rfl) (by simpa [readSpaces] using hbuf)
  | decb =>
    obtain ⟨hstatus, hsame⟩ := decbIn_sameResults b (hn rfl) (by simpa [readSpaces] using hbuf)
    exact ⟨hstatus, fun sp hsp => hsame sp (List.mem_pair.mpr (List.mem_pair.mp hsp).symm)⟩

end

/-! ## What an earlier command left in the hidden registers -/

/-- The host sees `N`, `STATUS` and the contents of the four spaces (R20). -/
theorem State.sameToHost_iff {s t : State} :
    s.SameToHost t ↔ s.n = t.n ∧ s.status = t.status ∧ ∀ sp, s.buf sp = t.buf sp := by
  refine and_congr_right fun _ => and_congr_right fun _ => ⟨fun ⟨htxt, hchr, hbit, hpix⟩ sp => ?_, fun h => ?_⟩
  · cases sp <;> simp [htxt, hchr, hbit, hpix]
  · exact ⟨by simpa using h .txt, by simpa using h .chr, by simpa using h .bit, by simpa using h .pix⟩

/-- A command takes states that are the same to the host to such states: it reads the same inputs, and what it does
not write stays the same. -/
theorem commandIn_sameToHost (b : Build) (i : Instr) {s t : State} (h : s.SameToHost t) :
    (commandIn b i s).SameToHost (commandIn b i t) := by
  obtain ⟨hn, -, hbuf⟩ := State.sameToHost_iff.mp h
  obtain ⟨hstatus, hwritten⟩ := commandIn_sameResults b (i := i) ⟨fun _ => hn, fun sp _ => hbuf sp⟩
  have hs := commandIn_writesOnly b s i
  have ht := commandIn_writesOnly b t i
  refine State.sameToHost_iff.mpr ⟨by rw [hs.n_eq, ht.n_eq, hn], hstatus, fun sp => ?_⟩
  by_cases hsp : sp ∈ writtenSpaces i
  · obtain heq | ⟨hold, hold'⟩ := hwritten sp hsp
    · exact heq
    · rw [hold, hold', hbuf]
  · rw [hs.buf_eq hsp, ht.buf_eq hsp, hbuf]

/-! ## The obligations -/

/-- Settles O19, by the frame of each command. -/
theorem commandsWriteOnlyTheirSpaces : Obligations.CommandsWriteOnlyTheirSpaces := by
  intro i s t h
  obtain rfl := exec_eq_next_iff.mp h
  exact commandIn_writesOnly Config.build s i

/-- Settles O20: each command's outcome is a function of its inputs, and the second stage of a composite reads
only `N` and what the first has written. -/
theorem commandsReadOnlyTheirInputs : Obligations.CommandsReadOnlyTheirInputs := by
  intro i s₁ s₂ t₁ t₂ hinputs h₁ h₂
  obtain rfl := exec_eq_next_iff.mp h₁
  obtain rfl := exec_eq_next_iff.mp h₂
  exact commandIn_sameResults Config.build hinputs

/-- Settles O21: the two states are the same to the host, and commands keep that. -/
theorem hiddenRegistersNeverReachTheHost : Obligations.HiddenRegistersNeverReachTheHost := by
  intro i s h d t u ht hu
  obtain rfl := exec_eq_next_iff.mp ht
  obtain rfl := exec_eq_next_iff.mp hu
  exact commandIn_sameToHost Config.build i ⟨rfl, rfl, rfl, rfl, rfl, rfl⟩

/-- Settles O18: `exec` is the total function `commandIn`. -/
theorem everyCommandEndsInEveryState : Obligations.EveryCommandEndsInEveryState :=
  fun i s => ⟨commandIn Config.build i s, exec_eq i s⟩

end Sys2Proof.Machine
end

section
/-! PROOFS, family other. CENC: the laws of its output and its step machine (spec/40_cyclecipher.md R90, R96 to
R99). -/

namespace Sys2Proof.Machine

/-! ## The shifts -/

theorem shiftUp_toNat (c : Byte) (cp : Nat) : ((shiftUp c cp).toNat : Int) = ((c.toNat : Int) + cp) % 256 := by
  simp [shiftUp]

theorem shiftDown_toNat (c : Byte) (cp : Nat) :
    ((shiftDown c cp).toNat : Int) = ((c.toNat : Int) - cp) % 256 := by
  simp only [shiftDown, BitVec.toNat_ofInt]
  omega

@[simp] theorem shiftDown_shiftUp (c : Byte) (cp : Nat) : shiftDown (shiftUp c cp) cp = c := by
  apply BitVec.eq_of_toNat_eq
  have hdown := shiftDown_toNat (shiftUp c cp) cp
  have hup := shiftUp_toNat c cp
  have hc := c.isLt
  omega

@[simp] theorem shiftUp_zero (c : Byte) : shiftUp c 0 = c := by
  simp [shiftUp]

/-! ## The output as a shifted sequence -/

section
variable (b : Build) (n : Nat)

/-- The cycle position advances with the output index (R98). -/
theorem advance_mod (k : Nat) : advance n (k % (n + 1)) = (k + 1) % (n + 1) := advances_mod n 1 k

/-- The sequence with each element shifted by the cycle position of its output index, from index `k` on (R98). -/
def shiftFrom (k : Nat) (us : List Byte) : List Byte := us.mapIdx fun j u => shiftUp u ((k + j) % (n + 1))

@[simp] theorem shiftFrom_nil (k : Nat) : shiftFrom n k [] = [] := rfl

@[simp] theorem shiftFrom_cons (k : Nat) (u : Byte) (us : List Byte) :
    shiftFrom n k (u :: us) = shiftUp u (k % (n + 1)) :: shiftFrom n (k + 1) us := by
  simp [shiftFrom, Nat.add_right_comm, Nat.add_assoc]

theorem shiftFrom_append (k : Nat) (us vs : List Byte) :
    shiftFrom n k (us ++ vs) = shiftFrom n k us ++ shiftFrom n (k + us.length) vs := by
  simp [shiftFrom, List.mapIdx_append, Nat.add_comm, Nat.add_left_comm]

/-- The `r` unshifted fillers from output index `k` on (R98). -/
def unshiftedFillers (k r : Nat) : List Byte :=
  (List.range r).map fun j => b.special[(k + j) % (n + 1) % 23]'(Nat.mod_lt _ (by decide))

@[simp] theorem unshiftedFillers_length (k r : Nat) : (unshiftedFillers b n k r).length = r := by
  simp [unshiftedFillers]

theorem unshiftedFillers_succ (k r : Nat) :
    unshiftedFillers b n k (r + 1) =
      b.special[k % (n + 1) % 23]'(Nat.mod_lt _ (by decide)) :: unshiftedFillers b n (k + 1) r := by
  simp [unshiftedFillers, List.range_succ_eq_map, Function.comp_def, Nat.add_assoc, Nat.add_comm 1]

/-- The inner loop of CENC shifts the fillers by their own output indices. -/
theorem fillersFrom_eq_shiftFrom (k r : Nat) :
    fillersFrom b n r (k % (n + 1)) = shiftFrom n (k + 1) (unshiftedFillers b n (k + 1) r) := by
  induction r generalizing k with
  | zero => rfl
  | succ r ih =>
    rw [fillersFrom, advance_mod, ih, unshiftedFillers_succ, shiftFrom_cons]
    rfl

/-- How many fillers follow the character at output index `k`. -/
def fillerCount (c : Byte) (k : Nat) : Nat := if b.isAlpha c then k % (n + 1) else 0

theorem fillerCount_le (c : Byte) (k : Nat) : fillerCount b n c k ≤ if b.isAlpha c then n else 0 := by
  unfold fillerCount
  split
  · exact Nat.le_of_lt_succ (Nat.mod_lt k n.succ_pos)
  · exact le_rfl

section
variable (c : Byte) (cs : List Byte) (k : Nat)

theorem unshiftedFrom_cons : unshiftedFrom b n (c :: cs) k =
    c :: (unshiftedFillers b n (k + 1) (fillerCount b n c k)
      ++ unshiftedFrom b n cs (k + 1 + fillerCount b n c k)) := rfl

theorem fillerCountFrom_cons : fillerCountFrom b n (c :: cs) k =
    fillerCount b n c k + fillerCountFrom b n cs (k + 1 + fillerCount b n c k) := rfl

theorem encodeFrom_cons : encodeFrom b n (c :: cs) (k % (n + 1)) =
    shiftUp c (k % (n + 1)) :: (fillersFrom b n (fillerCount b n c k) (k % (n + 1))
      ++ encodeFrom b n cs ((k + 1 + fillerCount b n c k) % (n + 1))) := by
  rw [show k + 1 + fillerCount b n c k = k + (fillerCount b n c k + 1) by omega, ← advances_mod]
  rfl

end

/-- R98 from any output index on: CENC's output is the unshifted sequence, shifted by output index. -/
theorem encodeFrom_eq_shiftFrom (txt : List Byte) (k : Nat) :
    encodeFrom b n txt (k % (n + 1)) = shiftFrom n k (unshiftedFrom b n txt k) := by
  induction txt generalizing k with
  | nil => simp [encodeFrom, unshiftedFrom, advance_mod]
  | cons c cs ih =>
    rw [encodeFrom_cons, unshiftedFrom_cons, ih, fillersFrom_eq_shiftFrom, shiftFrom_cons, shiftFrom_append,
      unshiftedFillers_length]

theorem encodeFrom_zero_eq_shiftFrom (txt : List Byte) :
    encodeFrom b n txt 0 = shiftFrom n 0 (unshiftedFrom b n txt 0) := by
  simpa using encodeFrom_eq_shiftFrom b n txt 0

/-- R99 from any output index on. -/
theorem unshiftedFrom_length (txt : List Byte) (k : Nat) :
    (unshiftedFrom b n txt k).length = txt.length + 2 + fillerCountFrom b n txt k := by
  induction txt generalizing k with
  | nil => rfl
  | cons c cs ih =>
    rw [unshiftedFrom_cons, fillerCountFrom_cons, List.length_cons, List.length_append, unshiftedFillers_length, ih,
      List.length_cons]
    omega

theorem encodeFrom_length (txt : List Byte) :
    (encodeFrom b n txt 0).length = txt.length + 2 + fillerCountFrom b n txt 0 := by
  rw [encodeFrom_zero_eq_shiftFrom, shiftFrom, List.length_mapIdx, unshiftedFrom_length]

/-- Each letter has at most `n` fillers. -/
theorem fillerCountFrom_le (txt : List Byte) (k : Nat) :
    fillerCountFrom b n txt k ≤ n * txt.countP b.isAlpha := by
  induction txt generalizing k with
  | nil => exact Nat.zero_le _
  | cons c cs ih =>
    have hcount := fillerCount_le b n c k
    have hrest := ih (k + 1 + fillerCount b n c k)
    rw [fillerCountFrom_cons, List.countP_cons, Nat.mul_add, mul_ite, Nat.mul_one, Nat.mul_zero]
    omega

/-- At period 1 the cycle position stays 0. -/
theorem encodeFrom_period_one (txt : List Byte) : encodeFrom b 0 txt 0 = txt ++ [b.atCode, b.atCode] := by
  induction txt with
  | nil => simp [encodeFrom, advance]
  | cons c cs ih => simp [encodeFrom, fillersFrom, advances, advance, ih]

end

/-! ## The cycle position of the step machines -/

section
variable (b : Build) (n : Nat) (inp : List Byte)

theorem advances_le {cp : Nat} (h : cp ≤ n) (j : Nat) : advances n j cp ≤ n := by
  cases j with
  | zero => exact h
  | succ j => rw [advances_succ]; exact advance_le n _

/-- A step of CENC advances `CP` at most twice (R97). -/
theorem CencSeq.step_cp (q : CencSeq) : ∃ j ≤ 2, (CencSeq.step b n inp q).regs.cp = advances n j q.regs.cp := by
  unfold CencSeq.step
  split
  · split
    · dsimp only
      split
      · exact ⟨0, by omega, rfl⟩
      · exact ⟨1, by omega, rfl⟩
    · exact ⟨0, by omega, rfl⟩
  · dsimp only
    split
    · exact ⟨2, le_rfl, rfl⟩
    · exact ⟨1, by omega, rfl⟩
  · exact ⟨0, by omega, rfl⟩
  · exact ⟨0, by omega, rfl⟩

/-- A step of CDEC advances `CP` at most once (R101). -/
theorem CdecSeq.step_cp (q : CdecSeq) : ∃ j ≤ 1, (CdecSeq.step b n inp q).regs.cp = advances n j q.regs.cp := by
  unfold CdecSeq.step
  split
  · exact ⟨0, by omega, rfl⟩
  · split
    · exact ⟨0, by omega, rfl⟩
    · dsimp only
      split <;> exact ⟨1, le_rfl, cdecByte_cp b n _ _⟩

end

/-- A bound on `CP` that every step of a machine keeps holds after every number of steps. -/
theorem iterate_cp_le {σ : Type} {n : Nat} {cp : σ → Nat} {f : σ → σ} {q : σ} (hq : cp q ≤ n)
    (hf : ∀ q, ∃ j, cp (f q) = advances n j (cp q)) (k : Nat) : cp (f^[k] q) ≤ n := by
  induction k with
  | zero => exact hq
  | succ k ih =>
    rw [Function.iterate_succ_apply']
    obtain ⟨j, hj⟩ := hf (f^[k] q)
    rw [hj]
    exact advances_le n ih j

/-! ## The step machine of CENC -/

section
variable (b : Build) (n : Nat) {txt : List Byte} {h : Hidden}

/-- A letter at a cycle position above 0 is followed by fillers. -/
theorem CencSeq.step_char_fill {x : Byte} (hx : txt[h.idx]? = some x) (hfill : b.isAlpha x = true ∧ 0 < h.cp) :
    CencSeq.step b n txt ⟨.char, h⟩ = ⟨.fill, { h.emit (shiftUp x h.cp) with rpt := h.cp }⟩ := by
  simp [CencSeq.step, hx, hfill, Hidden.emit]

theorem CencSeq.step_char_next {x : Byte} (hx : txt[h.idx]? = some x) (hfill : ¬ (b.isAlpha x = true ∧ 0 < h.cp)) :
    CencSeq.step b n txt ⟨.char, h⟩ = ⟨.char, ((h.emit (shiftUp x h.cp)).advanceCp n).nextIdx⟩ := by
  simp only [CencSeq.step, hx]
  exact if_neg fun hand => hfill ((Bool.and_eq_true_iff.mp hand).imp_right of_decide_eq_true)

theorem CencSeq.step_char_end (hx : txt[h.idx]? = none) :
    CencSeq.step b n txt ⟨.char, h⟩ = ⟨.term2, h.emit (shiftUp b.atCode h.cp)⟩ := by
  simp [CencSeq.step, hx]

/-- What one filler leaves in the registers (R96 lines 10 to 12). -/
def fillOne (h : Hidden) : Hidden :=
  { (h.advanceCp n).emit (filler b (advance n h.cp)) with rpt := h.rpt - 1 }

theorem CencSeq.step_fill_last (hr : h.rpt = 1) :
    CencSeq.step b n txt ⟨.fill, h⟩ = ⟨.char, ((fillOne b n h).advanceCp n).nextIdx⟩ :=
  if_pos (by simp [hr, Hidden.emit, Hidden.advanceCp])

theorem CencSeq.step_fill_more (hr : 1 < h.rpt) : CencSeq.step b n txt ⟨.fill, h⟩ = ⟨.fill, fillOne b n h⟩ :=
  if_neg (by simp [Hidden.emit, Hidden.advanceCp]; omega)

/-- The characters a state of the step machine has still to append: the rest of R96's output. -/
def CencSeq.rest (txt : List Byte) (q : CencSeq) : List Byte :=
  match q.phase with
  | .char => encodeFrom b n (txt.drop q.regs.idx) q.regs.cp
  | .fill => fillersFrom b n q.regs.rpt q.regs.cp
      ++ encodeFrom b n (txt.drop (q.regs.idx + 1)) (advances n (q.regs.rpt + 1) q.regs.cp)
  | .term2 => [shiftUp b.atCode (advance n q.regs.cp)]
  | .done => []

/-- The machine is in its filler phase only while fillers are still to come. -/
def CencSeq.Filling (q : CencSeq) : Prop := q.phase = .fill → 0 < q.regs.rpt

/-- One step of CENC moves the next character of the rest to `OUT`, and in `DONE` nothing is left (R97). -/
theorem CencSeq.step_spec {q : CencSeq} (hq : q.Filling) (hdone : q.phase ≠ .done) :
    (q.step b n txt).Filling ∧ ∃ c, q.rest b n txt = c :: (q.step b n txt).rest b n txt ∧
      (q.step b n txt).regs.out = q.regs.out ++ [c] := by
  obtain ⟨phase, h⟩ := q
  cases phase with
  | char =>
    cases hx : txt[h.idx]? with
    | none =>
      have hdrop : txt.drop h.idx = [] := List.drop_eq_nil_of_le (List.getElem?_eq_none_iff.mp hx)
      rw [CencSeq.step_char_end b n hx]
      exact ⟨nofun, shiftUp b.atCode h.cp, by simp [CencSeq.rest, hdrop, encodeFrom, Hidden.emit], rfl⟩
    | some x =>
      obtain ⟨hlt, hget⟩ := List.getElem?_eq_some_iff.mp hx
      have hdrop : txt.drop h.idx = x :: txt.drop (h.idx + 1) := by rw [List.drop_eq_getElem_cons hlt, hget]
      by_cases hfill : b.isAlpha x = true ∧ 0 < h.cp
      · rw [CencSeq.step_char_fill b n hx hfill]
        exact ⟨fun _ => hfill.2, shiftUp x h.cp, by simp [CencSeq.rest, hdrop, encodeFrom, hfill, Hidden.emit], rfl⟩
      · have hcount : (if b.isAlpha x = true then h.cp else 0) = 0 := by
          rw [ite_eq_right_iff]
          intro hx
          by_contra hcp
          exact hfill ⟨hx, Nat.pos_of_ne_zero hcp⟩
        rw [CencSeq.step_char_next b n hx hfill]
        refine ⟨nofun, shiftUp x h.cp, ?_, rfl⟩
        simp [CencSeq.rest, hdrop, encodeFrom, hcount, fillersFrom, advances, Hidden.emit, Hidden.advanceCp,
          Hidden.nextIdx]
  | fill =>
    obtain ⟨r, hr⟩ : ∃ r, h.rpt = r + 1 := Nat.exists_eq_add_one.mpr (hq rfl)
    cases r with
    | zero =>
      rw [CencSeq.step_fill_last b n hr]
      refine ⟨nofun, filler b (advance n h.cp), ?_, rfl⟩
      simp [CencSeq.rest, hr, fillOne, fillersFrom, advances, Hidden.emit, Hidden.advanceCp, Hidden.nextIdx]
    | succ r =>
      rw [CencSeq.step_fill_more b n (by omega)]
      refine ⟨fun _ => by simp [fillOne, hr], filler b (advance n h.cp), ?_, rfl⟩
      simp [CencSeq.rest, hr, fillOne, fillersFrom, advances, Hidden.emit, Hidden.advanceCp]
  | term2 => exact ⟨nofun, shiftUp b.atCode (advance n h.cp), rfl, rfl⟩
  | done => exact absurd rfl hdone

/-- A state with nothing left to append is in `DONE`, and only such a state. -/
theorem CencSeq.rest_eq_nil_iff {q : CencSeq} (hq : q.Filling) : q.rest b n txt = [] ↔ q.phase = .done := by
  refine ⟨fun hrest => ?_, fun hdone => by simp [CencSeq.rest, hdone]⟩
  by_contra hdone
  obtain ⟨-, c, hcons, -⟩ := CencSeq.step_spec b n (txt := txt) hq hdone
  rw [hrest] at hcons
  cases hcons

/-- After as many steps as characters were left, or fewer, the machine has appended one for each (R97). -/
theorem CencSeq.iterate_spec {q : CencSeq} (hq : q.Filling) {k : Nat} (hk : k ≤ (q.rest b n txt).length) :
    ((CencSeq.step b n txt)^[k] q).Filling ∧
    ((CencSeq.step b n txt)^[k] q).regs.out = q.regs.out ++ (q.rest b n txt).take k ∧
    ((CencSeq.step b n txt)^[k] q).rest b n txt = (q.rest b n txt).drop k := by
  induction k generalizing q with
  | zero => simpa using hq
  | succ k ih =>
    have hdone : q.phase ≠ .done := by
      rw [Ne, ← CencSeq.rest_eq_nil_iff b n (txt := txt) hq, ← List.length_eq_zero_iff]
      omega
    obtain ⟨hq', c, hcons, hout⟩ := CencSeq.step_spec b n (txt := txt) hq hdone
    rw [hcons, List.length_cons, Nat.add_le_add_iff_right] at hk
    simpa [hcons, hout] using ih hq' hk

theorem CencSeq.rest_start (h : Hidden) : (CencSeq.start h).rest b n txt = encodeFrom b n txt 0 := rfl

end

/-! ## The obligations -/

/-- Settles O23: CENC writes `encodeFrom`, which is the unshifted sequence shifted by output index. -/
theorem cencShiftsByOutputIndex : Obligations.CencShiftsByOutputIndex := by
  intro b s n hn
  rw [cencIn_of_eq b hn, State.complete_chr, State.setChr_chr, encodeFrom_zero_eq_shiftFrom, shiftFrom]
  simp only [Nat.zero_add]

/-- Settles O24: the output has the text, two `AT`, and for each letter the fillers that `fillerCountFrom` counts. -/
theorem cencLengthLaw : Obligations.CencLengthLaw := by
  intro b s n hn
  rw [cencIn_of_eq b hn]
  exact ⟨encodeFrom_length b n s.txt, fillerCountFrom_le b n s.txt 0⟩

/-- Settles O25: with `N = 0` no character is shifted and no letter has a filler. -/
theorem cencWithZeroIsIdentityWithSentinel : Obligations.CencWithZeroIsIdentityWithSentinel := by
  intro s hn
  obtain ⟨h, d, hexec⟩ := (cencEncodesAsR96 s).2 0 hn
  exact ⟨h, d, by rw [hexec, encodeFrom_period_one]⟩

/-- Settles O26: the bound holds at the start and an advance never leaves the period. -/
theorem cyclePositionStaysWithinThePeriod : Obligations.CyclePositionStaysWithinThePeriod := by
  intro b n inp h
  refine ⟨rfl, rfl, CencSeq.step_cp b n inp, CdecSeq.step_cp b n inp, ?_, ?_⟩
  · exact iterate_cp_le (cp := fun q : CencSeq => q.regs.cp) n.zero_le fun q =>
      let ⟨j, _, hj⟩ := CencSeq.step_cp b n inp q; ⟨j, hj⟩
  · exact iterate_cp_le (cp := fun q : CdecSeq => q.regs.cp) n.zero_le fun q =>
      let ⟨j, _, hj⟩ := CdecSeq.step_cp b n inp q; ⟨j, hj⟩

/-- Settles O27: the machine moves the output from `CencSeq.rest` to `OUT`, one character a step. -/
theorem cencStepMachineBuildsTheOutput : Obligations.CencStepMachineBuildsTheOutput := by
  intro b s n hn run
  have hchr : (cencIn b s).chr = encodeFrom b n s.txt 0 := by
    rw [cencIn_of_eq b hn]
    rfl
  have hspec : ∀ k ≤ (encodeFrom b n s.txt 0).length, (run k).Filling ∧
      (run k).regs.out = (encodeFrom b n s.txt 0).take k ∧
      (run k).rest b n s.txt = (encodeFrom b n s.txt 0).drop k := by
    rw [← CencSeq.rest_start b n s.hidden]
    exact fun k hk => CencSeq.iterate_spec b n (q := CencSeq.start s.hidden) nofun hk
  rw [hchr]
  obtain ⟨hq, hout, hrest⟩ := hspec _ le_rfl
  refine ⟨?_, by rw [hout, List.take_length], fun k hk => ?_⟩
  · rw [← CencSeq.rest_eq_nil_iff b n hq, hrest, List.drop_length]
  · obtain ⟨hq, hout, hrest⟩ := hspec k hk
    refine ⟨by rw [hout, List.length_take, Nat.min_eq_left hk], fun hlt hdone => ?_⟩
    rw [← CencSeq.rest_eq_nil_iff b n hq, hrest, List.drop_eq_nil_iff] at hdone
    omega

/-- Settles O32: both shifts reduce exact integers modulo 256, and the reductions cancel. -/
theorem shiftsAreExactAndInverse : Obligations.ShiftsAreExactAndInverse :=
  fun c cp => ⟨shiftUp_toNat c cp, shiftDown_toNat c cp, shiftDown_shiftUp c cp⟩

end Sys2Proof.Machine
end

section
/-! PROOFS, family other. CDEC: what it does not read, its step machine, and the round trip (spec/40_cyclecipher.md
R100, R101, R104). -/

namespace Sys2Proof.Machine

/-! ## Bytes after the sentinel -/

section
variable (b : Build) (n : Nat) (chr extra : List Byte)

theorem decodedCodes_append : ∃ more, decodedCodes n (chr ++ extra) = decodedCodes n chr ++ more :=
  ⟨_, List.mapIdx_append⟩

@[simp] theorem decodedCodes_length : (decodedCodes n chr).length = chr.length := List.length_mapIdx

/-- The working result after `k` bytes depends on these bytes only. -/
theorem workAfter_append {k : Nat} (hk : k ≤ chr.length) :
    workAfter b n (chr ++ extra) k = workAfter b n chr k := by
  obtain ⟨more, hmore⟩ := decodedCodes_append n chr extra
  rw [workAfter, hmore, List.take_append_of_le_length (by rwa [decodedCodes_length]), workAfter]

variable {b n chr}

theorem stopIndex_append {k : Nat} (h : stopIndex b n chr = some k) : stopIndex b n (chr ++ extra) = some k := by
  obtain ⟨hk, hend, hfirst⟩ := stopIndex_eq_some_iff.mp h
  refine stopIndex_eq_some_iff.mpr ⟨by rw [List.length_append]; omega, ?_, fun j hj => ?_⟩
  · rwa [workAfter_append b n chr extra hk]
  · rw [workAfter_append b n chr extra (by omega)]
    exact hfirst j hj

/-- A reading that found the sentinel stays the same on a longer input (R100). -/
theorem decodeByPrefix_append (h : (decodeByPrefix b n chr).2 = true) :
    decodeByPrefix b n (chr ++ extra) = decodeByPrefix b n chr := by
  cases hstop : stopIndex b n chr with
  | none => simp [decodeByPrefix, hstop] at h
  | some k =>
    have hk := (stopIndex_eq_some_iff.mp hstop).1
    simp only [decodeByPrefix, hstop, stopIndex_append extra hstop, workAfter_append b n chr extra hk]

end

/-- CDEC's flag is set where no sentinel was found (R27). -/
theorem statusWord_ok_not (found : Bool) : statusWord .ok (!found) = if found then 0x00 else 0x08 := by
  cases found <;> rfl

section
variable (b : Build) {s : State} {n : Nat} (h : s.n = n)
include h

theorem cdecIn_txt : (cdecIn b s).txt = (decodeByPrefix b n s.chr).1 := by
  rw [cdecIn_of_eq b h]
  rfl

theorem cdecIn_status : (cdecIn b s).status = if (decodeByPrefix b n s.chr).2 then 0x00 else 0x08 := by
  rw [cdecIn_of_eq b h, State.complete_status, statusWord_ok_not]

end

/-- `STATUS` is 0x00 exactly after a CDEC that ran and found the sentinel. -/
theorem cdecIn_status_eq_zero_iff (b : Build) (s : State) :
    (cdecIn b s).status = 0x00 ↔ ∃ n : Nat, s.n = n ∧ (decodeByPrefix b n s.chr).2 = true := by
  obtain hneg | ⟨n, hn⟩ := s.n_neg_or_eq_natCast
  · rw [cdecIn_of_neg b hneg]
    exact ⟨nofun, fun ⟨n, hn, _⟩ => by omega⟩
  · rw [cdecIn_status b hn]
    constructor
    · intro h
      exact ⟨n, hn, by simpa [ite_eq_iff] using h⟩
    · rintro ⟨m, hm, hfound⟩
      obtain rfl : m = n := by omega
      rw [if_pos hfound]

/-! ## The step machine of CDEC -/

section
variable (b : Build) (n : Nat) {chr : List Byte}

theorem CdecSeq.step_of_found {q : CdecSeq} (h : q.found = true) : CdecSeq.step b n chr q = q := if_pos h

theorem CdecSeq.iterate_of_found {q : CdecSeq} (h : q.found = true) (k : Nat) :
    (CdecSeq.step b n chr)^[k] q = q :=
  Function.iterate_fixed (CdecSeq.step_of_found b n h) k

/-- A step on a byte does what one turn of the loop does (R101). -/
theorem CdecSeq.step_of_getElem? {h : Hidden} {x : Byte} (hx : chr[h.idx]? = some x) :
    CdecSeq.step b n chr ⟨h, false⟩ =
      if endsInSentinel b (cdecByte b n h x).w then
        ⟨{ cdecByte b n h x with w := (cdecByte b n h x).w.take ((cdecByte b n h x).w.length - 2) }, true⟩
      else ⟨cdecByte b n h x, false⟩ := by
  simp [CdecSeq.step, hx]

/-- One step for each byte that is left runs CDEC's loop on these bytes. -/
theorem CdecSeq.iterate_eq_cdecLoop {xs : List Byte} {h : Hidden} (hxs : chr.drop h.idx = xs) :
    (CdecSeq.step b n chr)^[xs.length] ⟨h, false⟩ = ⟨(cdecLoop b n xs h).1, (cdecLoop b n xs h).2⟩ := by
  induction xs generalizing h with
  | nil => rfl
  | cons x xs ih =>
    have hx : chr[h.idx]? = some x := by rw [← List.head?_drop, hxs]; rfl
    have hrest : chr.drop (cdecByte b n h x).idx = xs := by rw [cdecByte_idx, ← List.tail_drop, hxs]; rfl
    rw [List.length_cons, Function.iterate_succ_apply, CdecSeq.step_of_getElem? b n hx, cdecLoop]
    split
    · rw [CdecSeq.iterate_of_found b n rfl]
    · exact ih hrest

/-- While the machine has not stopped, it has taken one byte and advanced `CP` once a step (R101). -/
theorem CdecSeq.iterate_start_of_not_found (h : Hidden) {k : Nat} (hk : k ≤ chr.length)
    (hfound : ((CdecSeq.step b n chr)^[k] (CdecSeq.start h)).found = false) :
    ((CdecSeq.step b n chr)^[k] (CdecSeq.start h)).regs.idx = k ∧
    ((CdecSeq.step b n chr)^[k] (CdecSeq.start h)).regs.cp = k % (n + 1) := by
  induction k with
  | zero => exact ⟨rfl, (Nat.zero_mod _).symm⟩
  | succ k ih =>
    rw [Function.iterate_succ_apply'] at hfound ⊢
    generalize (CdecSeq.step b n chr)^[k] (CdecSeq.start h) = q at hfound ih ⊢
    obtain ⟨g, f⟩ := q
    cases f with
    | true => rw [CdecSeq.step_of_found b n rfl] at hfound; cases hfound
    | false =>
      obtain ⟨hidx, hcp⟩ := ih (by omega) rfl
      dsimp only at hidx hcp
      have hx : chr[g.idx]? = some chr[k] := by rw [hidx]; exact List.getElem?_eq_getElem hk
      rw [CdecSeq.step_of_getElem? b n hx]
      split <;> simp only [cdecByte_idx, cdecByte_cp, hidx, hcp, advance_mod, and_self]

end

/-! ## The round trip -/

section
variable (b : Build) (n : Nat)

/-- Decoding what CENC shifted gives the unshifted sequence back (R104). -/
theorem decodedCodes_encodeFrom (txt : List Byte) :
    decodedCodes n (encodeFrom b n txt 0) = unshiftedFrom b n txt 0 := by
  refine List.ext_getElem? fun i => ?_
  have hcp : advances n i 0 = i % (n + 1) := by simpa using advances_mod n i 0
  simp [encodeFrom_zero_eq_shiftFrom, decodedCodes, shiftFrom, hcp, Function.comp_def]

theorem withoutSpecial_append (us vs : List Byte) :
    withoutSpecial b (us ++ vs) = withoutSpecial b us ++ withoutSpecial b vs := List.filter_append us vs

/-- The characters a receiver keeps: the printable ones that are not special (R100 lines 7 and 11). -/
def kept (us : List Byte) : List Byte := withoutSpecial b (us.filter b.isPrint)

theorem kept_append (us vs : List Byte) : kept b (us ++ vs) = kept b us ++ kept b vs := by
  simp [kept, withoutSpecial_append]

theorem kept_of_forall {us : List Byte} (hprint : ∀ c ∈ us, b.isPrint c = true)
    (hspecial : ∀ c ∈ us, ∀ k : Fin 23, b.special[k] ≠ c) : kept b us = us := by
  rw [kept, List.filter_eq_self.mpr hprint]
  exact List.filter_eq_self.mpr fun c hc => decide_eq_true (hspecial c hc)

/-- Fillers are special, so that a receiver keeps none of them. -/
theorem kept_unshiftedFillers (k r : Nat) : kept b (unshiftedFillers b n k r) = [] := by
  refine List.filter_eq_nil_iff.mpr fun c hc => ?_
  obtain ⟨j, -, rfl⟩ := List.mem_map.mp (List.mem_of_mem_filter hc)
  simp only [decide_eq_true_eq, not_forall, not_not]
  exact ⟨⟨(k + j) % (n + 1) % 23, Nat.mod_lt _ (by decide)⟩, rfl⟩

/-- The unshifted sequence ends in the sentinel, and of what comes before a receiver keeps what it keeps of the
text. -/
theorem unshiftedFrom_eq_append (txt : List Byte) (k : Nat) :
    ∃ us, unshiftedFrom b n txt k = us ++ [b.atCode, b.atCode] ∧ kept b us = kept b txt := by
  induction txt generalizing k with
  | nil => exact ⟨[], rfl, rfl⟩
  | cons c cs ih =>
    obtain ⟨us, hus, hkept⟩ := ih (k + 1 + fillerCount b n c k)
    refine ⟨[c] ++ unshiftedFillers b n (k + 1) (fillerCount b n c k) ++ us, by simp [unshiftedFrom_cons, hus], ?_⟩
    rw [kept_append, kept_append, kept_unshiftedFillers, List.append_nil, hkept, ← kept_append, List.singleton_append]

variable {b n} {text : List Byte}

namespace Carriable

theorem kept_text (h : Carriable b text) : kept b text = text := kept_of_forall b h.printable h.notSpecial

theorem kept_ats (h : Carriable b text) {ats : List Byte} (hats : ∀ c ∈ ats, c = b.atCode) : kept b ats = ats :=
  kept_of_forall b (fun c hc => hats c hc ▸ h.atPrintable) fun c hc => hats c hc ▸ h.atNotSpecial

/-- No two adjacent `AT` stand in the text and the first `AT` of the sentinel (h5 and h6 of R104). -/
theorem not_at_at (h : Carriable b text) : ¬ [b.atCode, b.atCode] <:+: text ++ [b.atCode] := by
  rintro ⟨u, v, huv⟩
  obtain rfl | ⟨v, y, rfl⟩ := List.eq_nil_or_concat v
  · have htext : text = u ++ [b.atCode] := by
      refine (List.append_cancel_right (bs := [b.atCode]) ?_).symm
      simpa using huv
    exact h.lastNotAt (by simp [htext])
  · have htext : text = u ++ [b.atCode, b.atCode] ++ v := by
      refine (List.append_inj_left' (t₁ := [y]) (t₂ := [b.atCode]) ?_ rfl).symm
      simpa using huv
    exact h.noAtPair u.length (by simp [htext])

/-- CDEC gives the text back from what CENC made of it, and finds the sentinel (R104). -/
theorem decodeByPrefix_encodeFrom (h : Carriable b text) (n : Nat) :
    decodeByPrefix b n (encodeFrom b n text 0) = (text, true) := by
  obtain ⟨us, hus, hkept⟩ := unshiftedFrom_eq_append b n text 0
  rw [h.kept_text] at hkept
  have hcodes : decodedCodes n (encodeFrom b n text 0) = us ++ [b.atCode, b.atCode] := by
    rw [decodedCodes_encodeFrom, hus]
  have hlen : (encodeFrom b n text 0).length = us.length + 2 := by
    rw [← decodedCodes_length n, hcodes, List.length_append]
    rfl
  have hwork : workAfter b n (encodeFrom b n text 0) (us.length + 2) =
      us.filter b.isPrint ++ [b.atCode, b.atCode] := by
    rw [workAfter, hcodes, List.take_of_length_le (by simp), List.filter_append]
    simp [h.atPrintable]
  have hstop : stopIndex b n (encodeFrom b n text 0) = some (us.length + 2) := by
    refine stopIndex_eq_some_iff.mpr ⟨hlen.ge, ⟨_, hwork.symm⟩, fun j hj hend => h.not_at_at ?_⟩
    have hpart : (us ++ [b.atCode, b.atCode]).take j <+: us ++ [b.atCode] := by
      rw [List.append_cons, List.take_append_of_le_length (by simp; omega)]
      exact List.take_prefix j _
    rw [EndsInAtAt, workAfter, hcodes] at hend
    have hats : withoutSpecial b [b.atCode, b.atCode] = [b.atCode, b.atCode] := by
      simpa [kept, h.atPrintable] using h.kept_ats (ats := [b.atCode, b.atCode]) (by simp)
    calc [b.atCode, b.atCode] = withoutSpecial b [b.atCode, b.atCode] := hats.symm
      _ <:+: withoutSpecial b (((us ++ [b.atCode, b.atCode]).take j).filter b.isPrint) := (hend.filter _).isInfix
      _ <:+: kept b (us ++ [b.atCode]) := ((hpart.filter _).filter _).isInfix
      _ = text ++ [b.atCode] := by rw [kept_append, hkept, h.kept_ats (by simp)]
  have hdrop : (us.filter b.isPrint ++ [b.atCode, b.atCode]).dropLast.dropLast = us.filter b.isPrint := by
    rw [← take_length_sub_two, List.length_append, List.length_cons, List.length_singleton, Nat.add_sub_cancel,
      List.take_left]
  simp only [decodeByPrefix, hstop, hwork, hdrop]
  exact congrArg (·, true) hkept

/-- The round trip survives further bytes after the encoded stream (R104). -/
theorem decodeByPrefix_encodeFrom_append (h : Carriable b text) (n : Nat) (extra : List Byte) :
    decodeByPrefix b n (encodeFrom b n text 0 ++ extra) = (text, true) := by
  rw [decodeByPrefix_append extra (by rw [h.decodeByPrefix_encodeFrom]), h.decodeByPrefix_encodeFrom]

end Carriable

end

/-! ## The obligations -/

/-- Settles O29: `STATUS` 0x00 says that the reading stopped, and it stops at the same byte of the longer input. -/
theorem bytesAfterTheSentinelAreIgnored : Obligations.BytesAfterTheSentinelAreIgnored := by
  intro b s extra hstatus
  obtain ⟨n, hn, hfound⟩ := (cdecIn_status_eq_zero_iff b s).mp hstatus
  rw [cdecIn_txt b (s := { s with chr := s.chr ++ extra }) hn,
    cdecIn_status b (s := { s with chr := s.chr ++ extra }) hn, cdecIn_txt b hn, decodeByPrefix_append extra hfound]
  exact ⟨rfl, if_pos hfound⟩

/-- Settles O30: the machine takes one turn of CDEC's loop a step. -/
theorem cdecStepMachineBuildsTheText : Obligations.CdecStepMachineBuildsTheText := by
  intro b s n hn run
  have hrun : run s.chr.length = ⟨(cdecLoop b n s.chr s.hidden.startCipher).1,
      (cdecLoop b n s.chr s.hidden.startCipher).2⟩ := CdecSeq.iterate_eq_cdecLoop b n rfl
  refine ⟨fun k hk hfound => ?_, ?_, ?_⟩
  · obtain ⟨hidx, hcp⟩ := CdecSeq.iterate_start_of_not_found b n s.hidden hk hfound
    exact ⟨hidx, by rw [hcp, hidx]⟩
  · rw [cdecIn_txt b hn, hrun, ← cdecLoop_eq_decodeByPrefix b n s.chr s.hidden, stripSpecial_eq]
  · rw [cdecIn_status b hn, hrun, ← cdecLoop_eq_decodeByPrefix b n s.chr s.hidden]

/-- Settles O31: decoded, CENC's output is the text with special fillers and the sentinel; before its last byte no
two `AT` can end the working result. -/
theorem cipherRoundTrip : Obligations.CipherRoundTrip := by
  intro b s extra hpos htext t
  obtain ⟨n, hn⟩ := Int.eq_ofNat_of_zero_le hpos
  have ht : t = (s.setChr (encodeFrom b n s.txt 0)).complete false := cencIn_of_eq b hn
  have hread : decodeByPrefix b n (t.chr ++ extra) = (s.txt, true) := by
    rw [ht]
    exact htext.decodeByPrefix_encodeFrom_append n extra
  have htn : ({ t with chr := t.chr ++ extra } : State).n = n := by
    rw [ht]
    exact hn
  rw [cdecIn_txt b htn, cdecIn_status b htn]
  exact ⟨by rw [hread], by rw [hread]; rfl⟩

end Sys2Proof.Machine
end

section
/-! PROOFS, family other. Units BP and PX: the inverse laws and the step machines (spec/41_bitpacker.md R123, R124,
spec/42_pixelchannel.md R136, R139). -/

namespace Sys2Proof.Machine

/-! ## The step machine of TOBITS -/

section
variable {chr : List Byte} {h : Hidden}

/-- Eight steps append the bits of one character and move on to the next (R123). -/
theorem TobitsSeq.iterate_eight {c : Byte} (hc : chr[h.idx]? = some c) :
    (TobitsSeq.step chr)^[8] ⟨0, h⟩ = ⟨0, { h.nextIdx with outBits := h.outBits ++ charBits c }⟩ := by
  simp [TobitsSeq.step, hc, Hidden.nextIdx, charBits, List.range_succ]

/-- From the start of a character on, the machine appends the bits of the characters that are left. -/
theorem TobitsSeq.iterate_outBits {cs : List Byte} (hcs : chr.drop h.idx = cs) :
    ((TobitsSeq.step chr)^[8 * cs.length] ⟨0, h⟩).regs.outBits = h.outBits ++ serialize cs := by
  induction cs generalizing h with
  | nil => simp [serialize]
  | cons c cs ih =>
    have hc : chr[h.idx]? = some c := by rw [← List.head?_drop, hcs]; rfl
    have hrest : chr.drop (h.idx + 1) = cs := by rw [← List.tail_drop, hcs]; rfl
    rw [List.length_cons, Nat.mul_succ, Function.iterate_add_apply, TobitsSeq.iterate_eight hc, ih hrest,
      serialize_cons, List.append_assoc]

end

/-! ## The step machine of TOBYTES -/

section
variable {bits : List Bit} {h : Hidden} {v : Nat} {x : Bit}

theorem TobytesSeq.step_within (hx : bits[h.idx]? = some x) (hidx : (h.idx + 1) % 8 ≠ 0) :
    TobytesSeq.step bits ⟨v, h⟩ = ⟨accumulateBit v x, h.nextIdx⟩ := by
  simp only [TobytesSeq.step, hx]
  exact if_neg hidx

theorem TobytesSeq.step_last (hx : bits[h.idx]? = some x) (hidx : (h.idx + 1) % 8 = 0) :
    TobytesSeq.step bits ⟨v, h⟩ = ⟨0, h.nextIdx.emit (BitVec.ofNat 8 (accumulateBit v x))⟩ := by
  simp only [TobytesSeq.step, hx]
  exact if_pos hidx

/-- Within a group the machine accumulates the bits it takes (R123). -/
theorem TobytesSeq.iterate_within {xs ys : List Bit} (hbits : bits.drop h.idx = xs ++ ys)
    (hidx : h.idx % 8 + xs.length < 8) :
    (TobytesSeq.step bits)^[xs.length] ⟨v, h⟩ =
      ⟨xs.foldl accumulateBit v, { h with idx := h.idx + xs.length }⟩ := by
  induction xs generalizing h v with
  | nil => rfl
  | cons x xs ih =>
    rw [List.length_cons] at hidx
    have hx : bits[h.idx]? = some x := by rw [← List.head?_drop, hbits]; rfl
    have hrest : bits.drop h.nextIdx.idx = xs ++ ys := by
      rw [Hidden.nextIdx, ← List.tail_drop, hbits]
      rfl
    have hidx' : h.nextIdx.idx % 8 + xs.length < 8 := by
      rw [Hidden.nextIdx]
      dsimp only
      omega
    rw [List.length_cons, Function.iterate_succ_apply, TobytesSeq.step_within hx (by omega), ih hrest hidx']
    simp [Hidden.nextIdx, Nat.add_assoc, Nat.add_comm 1]

/-- Eight steps on a whole group append its byte and move on to the next group (R123). -/
theorem TobytesSeq.iterate_eight {xs ys : List Bit} (hlen : xs.length = 7) (hidx : h.idx % 8 = 0)
    (hbits : bits.drop h.idx = xs ++ x :: ys) :
    (TobytesSeq.step bits)^[8] ⟨0, h⟩ =
      ⟨0, { h with idx := h.idx + 8, out := h.out ++ [groupByte (xs ++ [x])] }⟩ := by
  have hseven := TobytesSeq.iterate_within (v := 0) hbits (by omega)
  have hx : bits[h.idx + xs.length]? = some x := by rw [← List.getElem?_drop, hbits]; simp
  rw [hlen] at hseven hx
  rw [Function.iterate_succ_apply', hseven, TobytesSeq.step_last hx (by dsimp only; omega)]
  simp [Hidden.nextIdx, Hidden.emit, groupByte]

/-- From the start of a group on, the machine appends the bytes of the groups that are left. -/
theorem TobytesSeq.iterate_out {xs : List Bit} (hidx : h.idx % 8 = 0) (hbits : bits.drop h.idx = xs)
    (hlen : xs.length % 8 = 0) :
    ((TobytesSeq.step bits)^[xs.length] ⟨0, h⟩).regs.out = h.out ++ deserialize xs := by
  induction xs using deserialize.induct generalizing h with
  | case1 b7 b6 b5 b4 b3 b2 b1 b0 rest ih =>
    have hrest : bits.drop (h.idx + 8) = rest := by rw [← List.drop_drop, hbits]; rfl
    have hgroup := TobytesSeq.iterate_eight (xs := [b7, b6, b5, b4, b3, b2, b1]) rfl hidx hbits
    rw [show (b7 :: b6 :: b5 :: b4 :: b3 :: b2 :: b1 :: b0 :: rest).length = rest.length + 8 from rfl] at hlen ⊢
    rw [Function.iterate_add_apply, hgroup, ih (by dsimp only; omega) hrest (by omega), deserialize,
      List.append_assoc]
    rfl
  | case2 xs hshort =>
    obtain rfl | ⟨b7, b6, b5, b4, b3, b2, b1, b0, rest, e, -⟩ := eq_nil_or_first_group xs hlen
    · exact (List.append_nil _).symm
    · exact absurd e (hshort b7 b6 b5 b4 b3 b2 b1 b0 rest)

end

/-! ## Reassembling more bits than an expansion -/

theorem deserialize_serialize_append (cs : List Byte) (rest : List Bit) :
    deserialize (serialize cs ++ rest) = cs ++ deserialize rest := by
  induction cs with
  | nil => rfl
  | cons c cs ih => rw [serialize_cons, List.append_assoc, deserialize_charBits_append, ih, List.cons_append]

/-! ## EXTRACT after EMBED -/

theorem map_lsb (ps : List Byte) : ps.map lsb = ps.map (bitOf · 0) := List.map_congr_left fun p _ => lsb_eq_bitOf p

/-- The carrier's low bits after EMBED are the payload, and beyond it the old ones (R139). -/
theorem map_lsb_embedLsbs {ps : List Byte} {bs : List Bit} (h : bs.length ≤ ps.length) :
    (embedLsbs ps bs).map lsb = bs ++ (ps.drop bs.length).map lsb := by
  induction bs generalizing ps with
  | nil => simp [embedLsbs_nil]
  | cons x xs ih =>
    cases ps with
    | nil => simp at h
    | cons p ps => simp [embedLsbs, lsb_eq_bitOf, bitOf_replaceLsb, ih (by simpa using h)]

/-- Embedding the same payload again changes nothing (R57). -/
theorem embedLsbs_embedLsbs {ps : List Byte} {bs : List Bit} (h : bs.length ≤ ps.length) :
    embedLsbs (embedLsbs ps bs) bs = embedLsbs ps bs := by
  induction bs generalizing ps with
  | nil => rw [embedLsbs_nil]
  | cons x xs ih =>
    cases ps with
    | nil => simp at h
    | cons p ps => simp [embedLsbs, replaceLsb_replaceLsb, ih (by simpa using h)]

theorem extract_embed_bit {s : State} (h : s.bit.length ≤ s.pix.length) :
    (extract (embed s)).bit = s.bit ++ (s.pix.drop s.bit.length).map lsb := by
  rw [extract_eq, State.complete_bit, State.setBit_bit, embed_of_le h, State.complete_pix, State.setPix_pix,
    map_lsb_embedLsbs h]

/-! ## The obligations -/

/-- Settles O35: `serialize` and `deserialize` undo each other, the one on whole groups. -/
theorem tobitsAndTobytesAreInverse : Obligations.TobitsAndTobytesAreInverse := by
  refine ⟨fun s => ?_, fun s hs => ?_⟩
  · have hwhole : (tobits s).bit.length % 8 = 0 := by
      have hlen : (tobits s).bit.length = 8 * (tobits s).chr.length := tobits_len_bit s
      omega
    rw [tobytes_of_mod_eq hwhole]
    exact ⟨deserialize_serialize s.chr, rfl⟩
  · rw [tobytes_of_mod_eq hs]
    exact serialize_deserialize hs

/-- Settles O37, group by group: eight steps of either machine do what one turn of the list function does. -/
theorem bitStepMachinesBuildTheOutputs : Obligations.BitStepMachinesBuildTheOutputs := by
  refine ⟨fun s => TobitsSeq.iterate_outBits rfl, fun s hs => ?_⟩
  rw [tobytes_of_mod_eq hs]
  exact TobytesSeq.iterate_out rfl rfl hs

/-- Settles O40: the second EMBED finds the same lengths, and the low bits it writes are already there. -/
theorem embedIsIdempotent : Obligations.EmbedIsIdempotent := by
  intro s t u ht hu
  obtain rfl := exec_eq_next_iff.mp ht
  obtain rfl := exec_eq_next_iff.mp hu
  simp only [commandIn]
  obtain ⟨hl, e⟩ | ⟨hl, e⟩ := embed_cases s
  · have hl' : (embed s).pix.length < (embed s).bit.length := by rwa [e]
    rw [embed_of_lt hl', e]
    exact ⟨rfl, rfl⟩
  · have hl' : (embed s).bit.length ≤ (embed s).pix.length := by
      rw [e]
      exact hl.trans (embedLsbs_length s.pix s.bit hl).ge
    rw [embed_of_le hl', e]
    exact ⟨embedLsbs_embedLsbs hl, rfl⟩

/-- Settles O42: what EXTRACT reads is the payload followed by the low bits EMBED has left. -/
theorem extractRecoversTheEmbeddedBits : Obligations.ExtractRecoversTheEmbeddedBits := by
  intro s hl
  rw [extract_embed_bit hl]
  refine ⟨List.take_left, fun i p hi hp => ?_⟩
  rw [List.getElem?_append_right hi, List.getElem?_map, List.getElem?_drop, Nat.add_sub_cancel' hi, hp,
    Option.map_some, lsb_eq_bitOf]

end Sys2Proof.Machine
end

section
/-! PROOFS, family other. HIDE and REVEAL: their outcomes, their expansions and the end-to-end round trip
(spec/43_composite.md R153 to R155, spec/30_encoding.md R78). -/

namespace Sys2Proof.Machine

/-! ## HIDE and REVEAL by what their stages need -/

section
variable (b : Build) {s : State} {n : Nat}

theorem hideIn_of_neg (h : s.n < 0) : hideIn b s = s.raise .param := by
  rw [hideIn_eq, encbIn_of_neg b h, thenStage_raise _ _ _ (by decide)]

theorem encbIn_fields (h : s.n = n) : encbIn b s =
    (((s.setChr (encodeFrom b n s.txt 0)).complete false).setBit
      (serialize (encodeFrom b n s.txt 0))).complete false := by
  rw [encbIn_of_eq b h, cencIn_of_eq b h]
  rfl

/-- A payload longer than the carrier stops HIDE in EMBED (R153). -/
theorem hideIn_of_lt (h : s.n = n) (hl : s.pix.length < 8 * (encodeFrom b n s.txt 0).length) :
    hideIn b s = (encbIn b s).raise .capacity := by
  obtain ⟨hneg, -⟩ | ⟨m, -, -, e⟩ | ⟨m, hm, hle, -⟩ := hideIn_cases b s
  · omega
  · exact e
  · obtain rfl : m = n := by omega
    omega

/-- A payload that fits is embedded (R153). -/
theorem hideIn_of_le (h : s.n = n) (hl : 8 * (encodeFrom b n s.txt 0).length ≤ s.pix.length) :
    hideIn b s = ((encbIn b s).setPix (embedLsbs s.pix (serialize (encodeFrom b n s.txt 0)))).complete false := by
  obtain ⟨hneg, -⟩ | ⟨m, hm, hlt, -⟩ | ⟨m, hm, -, e⟩ := hideIn_cases b s
  · omega
  · obtain rfl : m = n := by omega
    omega
  · obtain rfl : m = n := by omega
    exact e

theorem extract_bit (s : State) : (extract s).bit = s.pix.map (bitOf · 0) := map_lsb s.pix

theorem extract_bit_length (s : State) : (extract s).bit.length = s.pix.length := List.length_map lsb

theorem revealIn_of_mod_ne (h : s.pix.length % 8 ≠ 0) : revealIn b s = (extract s).raise .align := by
  rw [revealIn_eq, decbIn_of_mod_ne b (by rwa [extract_bit_length])]

theorem revealIn_of_mod_eq (h : s.pix.length % 8 = 0) : revealIn b s = cdecIn b (tobytes (extract s)) := by
  rw [revealIn_eq, decbIn_of_mod_eq b (by rwa [extract_bit_length])]

/-- The bytes REVEAL reassembles. -/
theorem tobytes_extract (h : s.pix.length % 8 = 0) : tobytes (extract s) =
    ((extract s).setChr (deserialize (s.pix.map (bitOf · 0)))).complete false := by
  rw [tobytes_of_mod_eq (by rwa [extract_bit_length]), extract_bit]

end

/-- R136's rule for the carrier, element by element, as EMBED's own statement (`embedReplacesLeastSignificantBits`)
gives it. -/
theorem embedLsbs_element {ps : List Byte} {bs : List Bit} (hl : bs.length ≤ ps.length) {i : Nat} {p : Byte}
    (hp : ps[i]? = some p) : ∃ q : Byte, (embedLsbs ps bs)[i]? = some q ∧
      q.extractLsb' 1 7 = p.extractLsb' 1 7 ∧ (∀ x, bs[i]? = some x → bitOf q 0 = x) ∧ (bs.length ≤ i → q = p) := by
  let s := (State.reset.setPix ps).setBit bs
  obtain ⟨pix, h, d, hexec, -, helem⟩ := (embedReplacesLeastSignificantBits s).2 hl
  have hpix : embedLsbs ps bs = pix := by
    rw [exec_eq_next_iff, commandIn, embed_of_le hl] at hexec
    exact congrArg State.pix hexec
  rw [hpix]
  exact helem i p hp

/-! ## Scripts of commands -/

/-- Commands run one after another, each unless the one before it raised (R79, R150). -/
def runStages (s : State) (is : List Instr) : State :=
  is.foldl (fun t i => thenStage (commandIn Config.build i) t) s

theorem runStages_of_endedOk {s : State} (h : s.endedOk = true) (i : Instr) (is : List Instr) :
    runStages s (i :: is) = runStages (commandIn Config.build i s) is :=
  congrArg (runStages · is) (if_pos h)

/-- Nothing runs after a command that raised. -/
theorem runStages_of_not_endedOk {s : State} (h : s.endedOk = false) (is : List Instr) : runStages s is = s :=
  List.foldl_fixed' (fun _ => if_neg (by simp [h])) is

theorem all_wf_map_command (is : List Instr) : (is.map ScriptLine.command).all ScriptLine.wf = true := by
  simp only [List.all_map, List.all_eq_true]
  intro i _
  cases i <;> rfl

/-- A script of commands runs them as the stages of a composite (R79, R150). -/
theorem runScript_commands (i : Instr) (is : List Instr) (s : State) :
    runScript ((i :: is).map .command) s = .next (runStages (commandIn Config.build i s) is) := by
  rw [List.map_cons, runScript_command_cons (all_wf_map_command is) (exec_eq i s)]
  cases hok : (commandIn Config.build i s).endedOk with
  | false => simp [runStages_of_not_endedOk hok]
  | true =>
    cases is with
    | nil => rfl
    | cons j is =>
      rw [if_pos rfl, runStages_of_endedOk hok]
      exact runScript_commands j is _

/-! ## The obligations -/

/-- Settles O45, by the three outcomes of HIDE and the rule of EMBED for each element. -/
theorem hideOutcomes : Obligations.HideOutcomes := by
  refine fun b s => ⟨fun hn => ?_, fun n hn => ⟨fun hl => ?_, fun hl => ?_⟩⟩
  · rw [hideIn_of_neg b hn, State.raise, statusWord_param]
    rfl
  · refine ⟨Config.discardedHidden (s.freeDraws + 1), s.freeDraws + 2, ?_⟩
    rw [hideIn_of_lt b hn hl, encbIn_fields b hn, State.raise, statusWord_capacity]
    rfl
  · have hbits : (serialize (encodeFrom b n s.txt 0)).length ≤ s.pix.length := by rwa [serialize_length]
    refine ⟨embedLsbs s.pix (serialize (encodeFrom b n s.txt 0)), Config.discardedHidden (s.freeDraws + 2),
      s.freeDraws + 3, ?_, rfl, embedLsbs_length _ _ hbits, fun i p hp => ?_⟩
    · rw [hideIn_of_le b hn hl, encbIn_fields b hn, State.complete, statusWord_ok_false]
      rfl
    · obtain ⟨q, hq, hupper, hlow, hbeyond⟩ := embedLsbs_element hbits hp
      exact ⟨q, hq, hupper, hlow, fun hi => hbeyond (by rwa [serialize_length])⟩

/-- Settles O46, by the outcomes of TOBYTES and CDEC on the bits of the carrier. -/
theorem revealOutcomes : Obligations.RevealOutcomes := by
  refine fun b s => ⟨fun hl => ?_, fun hl hn => ?_, fun hl n hn => ?_⟩
  · refine ⟨Config.discardedHidden s.freeDraws, s.freeDraws + 1, ?_⟩
    rw [revealIn_of_mod_ne b hl, State.raise, statusWord_align, ← extract_bit]
    rfl
  · have hbytes := serialize_deserialize (bits := s.pix.map (bitOf · 0)) (by rwa [List.length_map])
    refine ⟨deserialize (s.pix.map (bitOf · 0)), Config.discardedHidden (s.freeDraws + 1), s.freeDraws + 2, ?_,
      hbytes⟩
    have hn' : (tobytes (extract s)).n < 0 := by rwa [tobytes_n]
    rw [revealIn_of_mod_eq b hl, cdecIn_of_neg b hn', tobytes_extract hl, State.raise, statusWord_param,
      ← extract_bit]
    rfl
  · have hbytes := serialize_deserialize (bits := s.pix.map (bitOf · 0)) (by rwa [List.length_map])
    refine ⟨deserialize (s.pix.map (bitOf · 0)), Config.discardedHidden (s.freeDraws + 2), s.freeDraws + 3, ?_,
      hbytes⟩
    have hn' : (tobytes (extract s)).n = n := by rwa [tobytes_n]
    rw [revealIn_of_mod_eq b hl, cdecIn_of_eq b hn', tobytes_extract hl, State.complete_chr, State.setChr_chr,
      State.complete, statusWord_ok_not, ← extract_bit]
    rfl

/-- Settles O47: both sides run the same stages, ENCB and DECB being two of them each. -/
theorem pseudoInstructionsAreTheirExpansions : Obligations.PseudoInstructionsAreTheirExpansions := by
  intro s
  have hhide : runScript [.command .cenc, .command .tobits, .command .embed] s = .next (hideIn Config.build s) :=
    runScript_commands .cenc [.tobits, .embed] s
  have hencb : runScript [.command .encb, .command .embed] s = .next (hideIn Config.build s) :=
    runScript_commands .encb [.embed] s
  have hreveal : runScript [.command .extract, .command .tobytes, .command .cdec] s =
      .next (revealIn Config.build s) := runScript_commands .extract [.tobytes, .cdec] s
  have hstages : thenStage (decbIn Config.build) (extract s) = revealIn Config.build s := by
    rw [revealIn_eq, extract_eq, thenStage_complete]
  have hdecb : runScript [.command .extract, .command .decb] s = .next (revealIn Config.build s) := by
    rw [← hstages]
    exact runScript_commands .extract [.decb] s
  rw [runScript_hide_cons, runScript_reveal_cons, hhide, hencb, hreveal, hdecb]
  exact ⟨rfl, rfl, rfl, rfl, rfl, rfl⟩

/-- Settles O48: the carrier's first bits are the encoded text's, so that REVEAL's bytes are the encoded text and
further ones, from which the cipher's round trip gives the text. -/
theorem endToEndRoundTrip : Obligations.EndToEndRoundTrip := by
  intro b s hpos htext hl hwhole
  obtain ⟨n, hn⟩ := Int.eq_ofNat_of_zero_le hpos
  rw [cencIn_of_eq b hn, State.complete_chr, State.setChr_chr] at hl
  obtain ⟨pix, h, d, hhide, hpix, hlen, -⟩ := ((hideOutcomes b s).2 n hn).2 hl
  have hrevealed := (revealOutcomes b (hideIn b s)).2.2
  rw [hhide] at hrevealed ⊢
  obtain ⟨bytes, h', d', hreveal, hbytes⟩ := hrevealed (by rwa [hlen]) n hn
  have hbits : bytes.flatMap charBits = serialize (encodeFrom b n s.txt 0) ++
      (s.pix.drop (serialize (encodeFrom b n s.txt 0)).length).map lsb := by
    rw [hbytes, ← map_lsb_embedLsbs (by rwa [serialize_length]), hpix, map_lsb]
    rfl
  have hread : decodeByPrefix b n bytes = (s.txt, true) := by
    rw [← deserialize_serialize bytes, serialize, hbits, deserialize_serialize_append]
    exact htext.decodeByPrefix_encodeFrom_append n _
  rw [hreveal, hread]
  exact ⟨rfl, rfl⟩

end Sys2Proof.Machine
end
